-- ==== Sys2Proof/Word.lean ====
section
/-! DEFINITION. The words that cross the ports of the Iris frame codec core, and the request record of port `REQ`
(00_scope.md R7, R9, R10; 10_state.md R22). -/

namespace Sys2Proof

/-- An unsigned 8-bit value (`u8`, R9). -/
abbrev Byte := BitVec 8

/-- A two's-complement signed 32-bit value (`i32`, R9): a duration or a pulse entry (R7). Read as a number by `toInt`. -/
abbrev I32 := BitVec 32

/-- A frame: an array of 12 bytes `F[0]` to `F[11]` (R10, R60). -/
abbrev Frame := Vector Byte 12

/-- A pulse sequence: signed entries in microseconds, positive a mark and negative a space (R67). -/
abbrev PulseSeq := List I32

/-- One (mark, space) duration tuple of the demodulator input (R68). -/
structure Pair where
  mark  : I32
  space : I32
deriving DecidableEq, Repr

/-- What the host writes on the request port `REQ`, once per operation (R22). Every request carries every field;
the selector alone tells which ones the operation uses (R73). -/
structure Request where
  /-- `REQ.op`, the 3-bit operation selector (R64). -/
  op : BitVec 3
  /-- `REQ.opw`, the operand word of BUILD_FRAME and SEND (R65). -/
  opw : BitVec 32
  /-- `REQ.repeat`, used by SEND only (R190). -/
  repeatCount : BitVec 32
  /-- `REQ.bytes`, used by CHECKSUM, VERIFY and MODULATE (R66). -/
  bytes : List Byte
  /-- `REQ.pairs`, used by DEMODULATE and ON_SIGNAL (R68). -/
  pairs : List Pair
deriving DecidableEq, Repr

end Sys2Proof
end

