-- ==== Sys2Proof/Syntax.lean ====
section
/-! DEFINITION. The operations of the core: one constructor for each row of spec/opcode_table.json (30_encoding.md R64),
with the operands its row uses. -/

namespace Sys2Proof

/-- One operation with its operands, after decoding (R64 to R68). -/
inductive Instr where
  /-- BUILD_FRAME (R100). -/
  | buildFrame (address : BitVec 16) (command : Byte) (mode : Byte)
  /-- CHECKSUM (R121): frame bytes 4 to 10. -/
  | checksum (bytes : List Byte)
  /-- VERIFY (R122): frame bytes 4 to 11. -/
  | verify (bytes : List Byte)
  /-- MODULATE (R140): frame bytes 0 to 11. -/
  | modulate (bytes : List Byte)
  /-- DEMODULATE (R160). -/
  | demodulate (pairs : List Pair)
  /-- SEND (R190). -/
  | send (address : BitVec 16) (command : Byte) (mode : Byte) (repeatCount : BitVec 32)
  /-- ON_SIGNAL (R192). -/
  | onSignal (pairs : List Pair)
  /-- The reserved selector 111 (R72). -/
  | reserved
deriving DecidableEq, Repr

end Sys2Proof
end

