-- ==== Sys2Proof/WellFormed.lean ====
section
/-! DEFINITION. When an operation meets its contract: the byte list has the length 30_encoding.md R66 fixes. Every value
of every other operand is legal (R65, R68). An operation that is not well formed is still carried out: its response
is REFUSED (R72). -/

namespace Sys2Proof

/-- The operation meets its contract (R66). The reserved selector is outside every contract (R72, R200). -/
def Instr.wellFormed : Instr → Bool
  | .buildFrame _ _ _ => true
  | .checksum bytes => bytes.length == 7
  | .verify bytes => bytes.length == 8
  | .modulate bytes => bytes.length == 12
  | .demodulate _ => true
  | .send _ _ _ _ => true
  | .onSignal _ => true
  | .reserved => false

end Sys2Proof
end

