-- ==== Sys2Proof/Decode.lean ====
section
/-! DEFINITION. From the fields of a request to an operation and back (30_encoding.md R64 to R68, R73). The selector
alone tells which fields are used (R73); a field the operation does not use is not read (R22). Decoding is total: each
of the eight selector values is a row of the table, and a byte list of a wrong length is answered by the operation's
own meaning with REFUSED (R72, R203). -/

namespace Sys2Proof

/-- `address = opw[31:16]` (R65). -/
def opwAddress (opw : BitVec 32) : BitVec 16 := opw.extractLsb' 16 16

/-- `command = opw[15:8]` (R65). -/
def opwCommand (opw : BitVec 32) : Byte := opw.extractLsb' 8 8

/-- `mode = opw[7:0]` (R65). -/
def opwMode (opw : BitVec 32) : Byte := opw.extractLsb' 0 8

/-- The operand word `{address[15:0], command[7:0], mode[7:0]}` (R65). -/
def packOpw (address : BitVec 16) (command mode : Byte) : BitVec 32 := address ++ command ++ mode

/-- Reads the operation a request asks for (R64). -/
def decode (r : Request) : Instr :=
  match r.op with
  | 0b000#3 => .buildFrame (opwAddress r.opw) (opwCommand r.opw) (opwMode r.opw)
  | 0b001#3 => .checksum r.bytes
  | 0b010#3 => .verify r.bytes
  | 0b011#3 => .modulate r.bytes
  | 0b100#3 => .demodulate r.pairs
  | 0b101#3 => .send (opwAddress r.opw) (opwCommand r.opw) (opwMode r.opw) r.repeatCount
  | 0b110#3 => .onSignal r.pairs
  | 0b111#3 => .reserved

/-- The selector of an operation (R64). -/
def Instr.selector : Instr → BitVec 3
  | .buildFrame _ _ _ => 0b000
  | .checksum _ => 0b001
  | .verify _ => 0b010
  | .modulate _ => 0b011
  | .demodulate _ => 0b100
  | .send _ _ _ _ => 0b101
  | .onSignal _ => 0b110
  | .reserved => 0b111

/-- A request with the given selector and every other field zero or empty. -/
def Request.blank (op : BitVec 3) : Request :=
  { op := op, opw := 0, repeatCount := 0, bytes := [], pairs := [] }

/-- The request that asks for an operation, written from R64 to R68. The fields the operation does not use are zero or
empty: no result depends on them (R22). -/
def encode (i : Instr) : Request :=
  match i with
  | .buildFrame a c m => { Request.blank i.selector with opw := packOpw a c m }
  | .checksum bytes => { Request.blank i.selector with bytes := bytes }
  | .verify bytes => { Request.blank i.selector with bytes := bytes }
  | .modulate bytes => { Request.blank i.selector with bytes := bytes }
  | .demodulate pairs => { Request.blank i.selector with pairs := pairs }
  | .send a c m k => { Request.blank i.selector with opw := packOpw a c m, repeatCount := k }
  | .onSignal pairs => { Request.blank i.selector with pairs := pairs }
  | .reserved => Request.blank i.selector

/-- The byte-list length the operation of a selector takes, where it takes one (R66). -/
def byteListLength (op : BitVec 3) : Option Nat :=
  match op with
  | 0b001#3 => some 7
  | 0b010#3 => some 8
  | 0b011#3 => some 12
  | _ => none

/-- The request an opcode-table row stands for: bits 2..0 of the row are the selector, the only bits the table numbers.
DESIGN CHOICE (log 13): every operand is zero: the operand word and the repeat count 0, a byte list of the length
R66 fixes that holds zeros, an empty pair list. -/
def tableRequest (w : Nat) : Request :=
  let op := BitVec.ofNat 3 w
  { Request.blank op with bytes := List.replicate ((byteListLength op).getD 0) 0 }

/-- Whether an opcode-table word is a selector: every bit above the 3-bit field is 0. -/
def isTableWord (nbits w : Nat) : Bool := w % 2 ^ nbits < 8

/-- The operation the decoder reads from an opcode-table word of `nbits` bits. -/
def decodeTableWord (nbits w : Nat) : Option Instr :=
  if isTableWord nbits w then some (decode (tableRequest (w % 2 ^ nbits))) else none

end Sys2Proof
end

