-- ==== Sys2Proof/Config.lean ====
section
/-! DEFINITION. What is fixed for the machine: the protocol constants of 00_scope.md R6 (hardwired and read-only,
10_state.md R25), the enumerations of 30_encoding.md R69, the open parameters of R8, and the one free value
the spec asks for (93_implementation_defined.md I10). -/

namespace Sys2Proof.Config

/-- Bytes per frame (R6). -/
def frameBytes : Nat := 12

/-- Bits per frame (R6). -/
def frameBits : Nat := 96

/-- Each of the four bytes of `SYNC`, frame bytes 0 to 3 (R6, R60). UNVERIFIED, as every number here: the spec calls
them unaudited (I1, log 9). -/
def syncByte : Byte := 0xAA

/-- The first byte of `PREAMBLE`, frame byte 4 (R6, R60). -/
def preambleHigh : Byte := 0x2D

/-- The second byte of `PREAMBLE`, frame byte 5 (R6, R60). -/
def preambleLow : Byte := 0xD4

/-- `RESERVED_BYTE`, frame byte 8 (R6, R63). -/
def reservedByte : Byte := 0x00

/-- `MARK_US`, the canonical mark duration in microseconds (R6). -/
def markUs : Int := 105

/-- `SPACE_US`, the canonical space duration in microseconds (R6). -/
def spaceUs : Int := 104

/-- `TOL_US`, the half-width of each timing window in microseconds (R6). -/
def tolUs : Int := 15

/-- `MAX_PULSES`, the upper bound on the entries of a pulse sequence (R6). -/
def maxPulses : Nat := 96

/-- How many handoffs a SEND had made when a reset abandoned it: any value from 0 to the full count (I10, R231).
A free value: the model applies it to a counter and keeps the result within the stated bound (log 7). -/
opaque freeHandoffs : Nat → Nat

/-- `SINK_GAP`, the inter-repeat gap the transmit sink applies: an open parameter that no rule of the core reads
(R8, D15). -/
opaque sinkGap : Nat

/-- The named command values: "power toggle, one of seven color selections, one of four preset modes, or a
brightness-adjust request" (R69). -/
inductive Command where
  | powerToggle
  | color (k : Fin 7)
  | preset (k : Fin 4)
  | brightnessAdjust
deriving DecidableEq, Repr

/-- The named mode values: "pool, spa, or pool+spa combined" (R69). -/
inductive Mode where
  | pool
  | spa
  | poolAndSpa
deriving DecidableEq, Repr

/-- `COMMAND_CODES`, the codes the source does not give (D28, N4). -/
opaque openCommandCode : Command → Byte

/-- `MODE_CODES`, the codes the source does not give (D28, N4). -/
opaque openModeCode : Mode → Byte

/-- The code of a command: `IRIS_POWER` is 0x11, the others are open (R69). No core rule reads it. -/
def commandCode : Command → Byte
  | .powerToggle => 0x11
  | c => openCommandCode c

/-- The code of a mode: `IRIS_POOL` is 0x01, the others are open (R69). No core rule reads it. -/
def modeCode : Mode → Byte
  | .pool => 0x01
  | m => openModeCode m

end Sys2Proof.Config
end

