-- ==== Sys2Proof/Machine/State.lean ====
section
/-! DEFINITION. Everything the spec gives the machine (10_state.md): the two transaction ports (R22), the
operation-local state of the three units that have any (R26 to R28), and what is observed of the core (R29); beside
them the host inputs still to come, and the counter that numbers free values. Plain data. -/

namespace Sys2Proof.Machine

open Sys2Proof

/-- The response status (R70). Its 3-bit code is `Status.code`. -/
inductive Status where
  /-- The operation completed. -/
  | ok
  /-- A pair matched neither template. -/
  | unexpectedTiming
  /-- Fewer than 96 classifiable bits. -/
  | truncated
  /-- 96 bits decoded, checksum invalid. -/
  | checksumMismatch
  /-- The request is outside every contract. -/
  | refused
deriving DecidableEq, Repr

/-- The operation-specific payload of a response (R71). -/
inductive Payload where
  /-- No payload: SEND, TRUNCATED, REFUSED. -/
  | none
  /-- BUILD_FRAME: `frame`. -/
  | frame (frame : Frame)
  /-- CHECKSUM: `c`. -/
  | checksum (c : Byte)
  /-- VERIFY: `ok`. -/
  | verified (ok : Bool)
  /-- MODULATE: `len` and the `len` entries. -/
  | pulses (len : Nat) (entries : PulseSeq)
  /-- DEMODULATE, status OK: `frame`, `command`, `mode`. -/
  | decoded (frame : Frame) (command : Byte) (mode : Byte)
  /-- DEMODULATE, UNEXPECTED_TIMING: `index`, 7 bits. -/
  | index (index : BitVec 7)
  /-- DEMODULATE, CHECKSUM_MISMATCH: `decoded_bytes`. -/
  | decodedBytes (bytes : Frame)
  /-- ON_SIGNAL, `some = false`. -/
  | noSignal
  /-- ON_SIGNAL, `some = true`: `command`, `mode`. -/
  | signal (command : Byte) (mode : Byte)
deriving DecidableEq, Repr

/-- What the core writes on the response port `RSP`, once per operation (R22). -/
structure Response where
  status  : Status
  payload : Payload
deriving DecidableEq, Repr

/-- One (request, response) pair of the observable behaviour (R29). -/
structure Exchange where
  request  : Request
  response : Response
deriving DecidableEq, Repr

/-- `count` consecutive handoffs of one pulse sequence to the transmit sink. The sink log is a list of such runs in one
canonical form (log 4), so that the 2^32 handoffs of R190 can be held. -/
structure SinkRun where
  pulses : PulseSeq
  count  : Nat
deriving DecidableEq, Repr

/-- checksum_engine, local state (R26): the accumulator `s`, never reduced while it runs. -/
structure ChecksumEngine where
  sum : Int
deriving DecidableEq, Repr

/-- pulse_modulator, local state (R27). -/
structure Modulator where
  acc : Int
  out : PulseSeq
  n   : Nat
deriving DecidableEq, Repr

/-- The phase of the pulse_demodulator (R28). -/
inductive Phase where
  | extract
  | verify
  | done
deriving DecidableEq, Repr

/-- pulse_demodulator, local state (R28): the pair cursor `i`, the bit buffer `B` and the phase. -/
structure Demodulator where
  i      : Nat
  buffer : Frame
  phase  : Phase
deriving DecidableEq, Repr

/-- What the outside world does to the core (log 2). -/
inductive HostInput where
  /-- The host writes a request on `REQ` (R22). -/
  | request (r : Request)
  /-- A reset with no operation in progress (R230). -/
  | reset
  /-- The host writes a request, and a reset arrives while its operation is in progress: the operation is abandoned
  (R231). -/
  | requestThenReset (r : Request)
deriving DecidableEq, Repr

/-- The core never stops: every error is the status of a response (R200, R204) and "none are fatal" (R205). So there is
no fault, and no operation raises one (log 8). -/
inductive Fault where
deriving DecidableEq, Repr

/-- Why the model has no meaning for an operation. -/
inductive Refusal where
  /-- Raised by an arm of `exec` whose operation has no meaning yet: safe. No arm raises it. -/
  | notModelled (mnemonic : String)
deriving DecidableEq, Repr

/-- The state of the machine. -/
structure State where
  /-- The request port `REQ` (R22). -/
  req : Option Request
  /-- The response port `RSP` (R22). -/
  rsp : Option Response
  /-- R26. -/
  checksumEngine : ChecksumEngine
  /-- R27. -/
  modulator : Modulator
  /-- R28. -/
  demodulator : Demodulator
  /-- Observed: the (request, response) pairs so far, oldest first (R29). No operation reads it. -/
  history : List Exchange
  /-- Observed: the handoffs to the transmit sink so far, oldest first (R29). No operation's response reads it. -/
  sinkLog : List SinkRun
  /-- The model's own: the host inputs still to come, the next one first (log 2). -/
  inputs : List HostInput
  /-- The model's own: how many free values have been read (log 7). -/
  freeIndex : Nat
deriving DecidableEq, Repr

/-- The accumulator at the start of an operation (R26, R30). -/
def ChecksumEngine.start : ChecksumEngine := { sum := 0 }

/-- The modulator at the start of a MODULATE (R27, R30). -/
def Modulator.start : Modulator := { acc := 0, out := [], n := 0 }

/-- The bit buffer of the reset state. DESIGN CHOICE: the spec allows any value (R28, I11, log 6). -/
def resetBuffer : Frame := #v[0, 0, 0, 0, 0, 0, 0, 0, 0, 0, 0, 0]

/-- The core right after reset (R30, R230): no request and no response pending, the units at their start values, nothing
observed yet, and no host input to come. -/
def State.reset : State :=
  { req := none
    rsp := none
    checksumEngine := ChecksumEngine.start
    modulator := Modulator.start
    demodulator := { i := 0, buffer := resetBuffer, phase := .extract }
    history := []
    sinkLog := []
    inputs := []
    freeIndex := 0 }

end Sys2Proof.Machine
end

