-- ==== Sys2Proof/Machine/Flags.lean ====
section
/-! DEFINITION. The core has no flags and no condition codes (10_state.md R23): the outcome of an operation is the
status of its response. This file holds the status codes (30_encoding.md R70) and what each decode error reports
(60_exceptions.md R200). -/

namespace Sys2Proof.Machine

open Sys2Proof

/-- The 3-bit code of a status (R70). -/
def Status.code : Status → BitVec 3
  | .ok => 0b000
  | .unexpectedTiming => 0b001
  | .truncated => 0b010
  | .checksumMismatch => 0b011
  | .refused => 0b111

/-- The status a 3-bit code names; 100 to 110 are unused (R70). -/
def Status.ofCode (c : BitVec 3) : Option Status :=
  match c with
  | 0b000#3 => some .ok
  | 0b001#3 => some .unexpectedTiming
  | 0b010#3 => some .truncated
  | 0b011#3 => some .checksumMismatch
  | 0b100#3 => none
  | 0b101#3 => none
  | 0b110#3 => none
  | 0b111#3 => some .refused

/-- Why a decode failed (R200). -/
inductive DecodeError where
  /-- "an observed pulse pair matches neither bit-0 nor bit-1 timing template", with the 0-based pair index (R169). -/
  | unexpectedTiming (index : Nat)
  /-- "fewer than 96 bits were classifiable before input exhausted". -/
  | truncated
  /-- "frame fully decoded but checksum invalid", with all 12 bytes (R166). -/
  | checksumMismatch (decodedBytes : Frame)
deriving DecidableEq, Repr

/-- The response that reports a decode error (R71, R200). -/
def DecodeError.response : DecodeError → Response
  | .unexpectedTiming i => { status := .unexpectedTiming, payload := .index (BitVec.ofNat 7 i) }
  | .truncated => { status := .truncated, payload := .none }
  | .checksumMismatch F => { status := .checksumMismatch, payload := .decodedBytes F }

/-- The response to a request outside every contract (R72). -/
def refusedResponse : Response := { status := .refused, payload := .none }

/-- The response DEMODULATE gives for a decoded frame: command is byte 9 and mode is byte 10 (R71, R160). -/
def decodedResponse (F : Frame) : Response := { status := .ok, payload := .decoded F F[9] F[10] }

/-- The response of DEMODULATE (R160). -/
def demodulateResponse : Except DecodeError Frame → Response
  | .ok F => decodedResponse F
  | .error e => e.response

/-- ON_SIGNAL's response from the response of DEMODULATE (R192): status OK gives the command and the mode, every other
status gives `some = false`. -/
def onSignalResponse (r : Response) : Response :=
  match r.status, r.payload with
  | .ok, .decoded _ command mode => { status := .ok, payload := .signal command mode }
  | _, _ => { status := .ok, payload := .noSignal }

end Sys2Proof.Machine
end

