-- ==== Sys2Proof/Machine/Operands.lean ====
section
/-! DEFINITION. The operand forms: bytes and bits of a frame (00_scope.md R10, 20_memory.md R40 to R43, 30_encoding.md
R60, R61) and the timing windows of a pair (00_scope.md R11, 44_pulse_demodulator.md R161 to R164). -/

namespace Sys2Proof.Machine

open Sys2Proof

/-- `F[k]`; a frame has the offsets 0 to 11 only (R40), and no rule reads another. -/
def frameByte (F : Frame) (k : Nat) : Byte := F[k]?.getD 0

/-- `F[i..j]`, both ends included (R10), in increasing offset. -/
def frameSlice (F : Frame) (i j : Nat) : List Byte := (F.toList.take (j + 1)).drop i

/-- A byte list of length 12 as a frame, offsets 0 to 11 in order (R66). A list of another length is none. -/
def frameOfBytes : List Byte → Option Frame
  | [b0, b1, b2, b3, b4, b5, b6, b7, b8, b9, b10, b11] => some #v[b0, b1, b2, b3, b4, b5, b6, b7, b8, b9, b10, b11]
  | _ => none

/-- `bit(F, n) = F[n div 8][7 - (n mod 8)]` (R10, R42). -/
def frameBit (F : Frame) (n : Nat) : Bool := (frameByte F (n / 8)).getLsbD (7 - n % 8)

/-- `v[k] <- b` on a byte. -/
def setByteBit (v : Byte) (k : Nat) (b : Bool) : Byte :=
  let mask : Byte := 1#8 <<< k
  if b then v ||| mask else v &&& ~~~mask

/-- `F[n div 8][7 - (n mod 8)] <- b` (R160). -/
def setFrameBit (F : Frame) (n : Nat) (b : Bool) : Frame :=
  F.setIfInBounds (n / 8) (setByteBit (frameByte F (n / 8)) (7 - n % 8) b)

/-- The 96-bit value form `FV = {F[0], F[1], ..., F[11]}` (R43). -/
def frameValue (F : Frame) : BitVec 96 :=
  F[0] ++ F[1] ++ F[2] ++ F[3] ++ F[4] ++ F[5] ++ F[6] ++ F[7] ++ F[8] ++ F[9] ++ F[10] ++ F[11]

/-- `inwin(d, nom)`: within `TOL_US` of the nominal value, both bounds inclusive, over the integers (R11, R162). -/
def inWindow (d : I32) (nominal : Int) : Bool :=
  decide (nominal - Config.tolUs ≤ d.toInt ∧ d.toInt ≤ nominal + Config.tolUs)

/-- The bit-0 template, "mark≈105 & space≈104" (R161). -/
def matchesBit0 (p : Pair) : Bool := inWindow p.mark Config.markUs && inWindow p.space Config.spaceUs

/-- The bit-1 template, "space≈105 & mark≈104" (R161). -/
def matchesBit1 (p : Pair) : Bool := inWindow p.space Config.markUs && inWindow p.mark Config.spaceUs

/-- The bit a pair stands for, or none. The bit-0 template is tested first (R163). Durations are compared as given, with
no absolute value (R170). -/
def classify (p : Pair) : Option Bool :=
  if matchesBit0 p then some false
  else if matchesBit1 p then some true
  else none

end Sys2Proof.Machine
end

