-- ==== Sys2Proof/Machine/Ops.lean ====
section
/-! DEFINITION. The operations the meanings share: the ports (30_encoding.md R70, R72; 60_exceptions.md R204), the sink
(45_logical_api.md R190), the four units (41 to 44), and the reset (70_reset_and_hazards.md R230, R231). Reporting an
error is the core's only exception: `State.raise`, and there is nothing to return from (R205). -/

namespace Sys2Proof.Machine

open Sys2Proof

/-! ## Ports -/

/-- `respond(status, payload)`: places the response on `RSP` (R11, R70). -/
def State.respond (s : State) (r : Response) : State := { s with rsp := some r }

/-- `raise E(info)`: ends the operation with the error's response and no other effect (R11, R204). -/
def State.raise (s : State) (e : DecodeError) : State := s.respond e.response

/-- A request outside every contract gets REFUSED and has no other effect (R72). -/
def State.refuse (s : State) : State := s.respond refusedResponse

/-- The host writes a request on `REQ`. No port keeps its value from one operation to the next (R22), so the earlier
response is gone. -/
def State.writeRequest (s : State) (r : Request) : State := { s with req := some r, rsp := none }

/-- The core takes the pending request from `REQ` (R22). -/
def State.takeRequest (s : State) : State := { s with req := none, rsp := none }

/-- Records the (request, response) pair of the operation that has just ended (R29). -/
def State.record (s : State) (r : Request) : State :=
  match s.rsp with
  | some p => { s with history := s.history ++ [{ request := r, response := p }] }
  | none => s

/-! ## The transmit sink -/

/-- `n` further handoffs of `p` after the runs of a log. A run of the same sequence grows, so that equal sequences of
handoffs are equal logs (log 4). -/
def appendRun (p : PulseSeq) (n : Nat) : List SinkRun → List SinkRun
  | [] => if n = 0 then [] else [{ pulses := p, count := n }]
  | [r] =>
    if n = 0 then [r]
    else if r.pulses = p then [{ r with count := r.count + n }]
    else [r, { pulses := p, count := n }]
  | r :: q :: rest => r :: appendRun p n (q :: rest)

/-- The handoffs a log stands for, one entry each, oldest first (R29). -/
def sinkHandoffs (log : List SinkRun) : List PulseSeq :=
  log.flatMap fun r => List.replicate r.count r.pulses

/-- `sink(p)`, `n` times (R11, R190). -/
def State.sink (s : State) (p : PulseSeq) (n : Nat) : State :=
  { s with sinkLog := appendRun p n s.sinkLog }

/-! ## checksum_engine -/

/-- `s <- s + b[j]`: an exact sum, not reduced on the way (R120). -/
def ChecksumEngine.add (e : ChecksumEngine) (b : Byte) : ChecksumEngine := { sum := e.sum + b.toNat }

/-- Adds the bytes of a list in order, the accumulator starting at 0 (R26, R120). -/
def ChecksumEngine.addAll (bytes : List Byte) : ChecksumEngine := bytes.foldl ChecksumEngine.add ChecksumEngine.start

/-- `(-s) mod 256`: negation and truncation happen once, at the end (R120). -/
def ChecksumEngine.result (e : ChecksumEngine) : Byte := BitVec.ofInt 8 (-e.sum)

/-- `Checksum(b)` (R120), the one checksum function of the core (R123). -/
def checksum (bytes : List Byte) : Byte := (ChecksumEngine.addAll bytes).result

/-- Runs the checksum engine on a byte list: its result, and the state with the accumulator it leaves. -/
def State.runChecksum (s : State) (bytes : List Byte) : Byte × State :=
  let e := ChecksumEngine.addAll bytes
  (e.result, { s with checksumEngine := e })

/-! ## frame_builder -/

/-- Frame bytes 4 to 10 of the frame to be built (R100). -/
def frameBody (address : BitVec 16) (command mode : Byte) : List Byte :=
  [Config.preambleHigh, Config.preambleLow, address.extractLsb' 8 8, address.extractLsb' 0 8, Config.reservedByte,
    command, mode]

/-- The frame of R60 with the given checksum byte. -/
def assembleFrame (address : BitVec 16) (command mode check : Byte) : Frame :=
  #v[Config.syncByte, Config.syncByte, Config.syncByte, Config.syncByte, Config.preambleHigh, Config.preambleLow,
    address.extractLsb' 8 8, address.extractLsb' 0 8, Config.reservedByte, command, mode, check]

/-- The frame BUILD_FRAME gives (R100). -/
def builtFrame (address : BitVec 16) (command mode : Byte) : Frame :=
  assembleFrame address command mode (checksum (frameBody address command mode))

/-- Runs the frame builder (R100): the frame, and the state after the internal use of the checksum engine (R26). -/
def State.runFrameBuilder (s : State) (address : BitVec 16) (command mode : Byte) : Frame × State :=
  let (check, s') := s.runChecksum (frameBody address command mode)
  (assembleFrame address command mode check, s')

/-! ## pulse_modulator -/

/-- The pulse of one bit: a mark for 1, a space for 0 (R140). -/
def bitPulse (b : Bool) : Int := if b then Config.markUs else -Config.spaceUs

/-- One turn of the loop of R140: the bit at the cursor joins the run in the accumulator, or ends it. -/
def Modulator.step (F : Frame) (m : Modulator) : Modulator :=
  let p := bitPulse (frameBit F m.n)
  if m.acc = 0 ∨ m.acc.sign = p.sign then
    { m with acc := m.acc + p, n := m.n + 1 }
  else
    { acc := p, out := m.out ++ [BitVec.ofInt 32 m.acc], n := m.n + 1 }

/-- `k` turns of the loop. -/
def Modulator.steps (F : Frame) : Nat → Modulator → Modulator
  | 0, m => m
  | k + 1, m => Modulator.steps F k (m.step F)

/-- "The final accumulator, if nonzero, is flushed" (R140). -/
def Modulator.flush (m : Modulator) : Modulator :=
  if m.acc = 0 then m else { m with out := m.out ++ [BitVec.ofInt 32 m.acc] }

/-- The modulator's local state after a whole frame (R140). -/
@[irreducible] def Modulator.run (F : Frame) : Modulator := (Modulator.steps F Config.frameBits Modulator.start).flush

/-- The pulse sequence MODULATE gives for a frame (R140). -/
def modulated (F : Frame) : PulseSeq := (Modulator.run F).out

/-- Runs the modulator: the pulse sequence, and the state with what its local state is left at (R27). -/
def State.runModulator (s : State) (F : Frame) : PulseSeq × State :=
  (modulated F, { s with modulator := Modulator.run F })

/-! ## pulse_demodulator -/

/-- The loop of R160 over at most `k` more pairs: the local state it leaves, and the error that ended it, if one did. -/
def Demodulator.extract (pairs : List Pair) : Nat → Demodulator → Demodulator × Option DecodeError
  | 0, d => (d, none)
  | k + 1, d =>
    match pairs[d.i]? with
    | none => (d, some .truncated)
    | some p =>
      match classify p with
      | none => (d, some (.unexpectedTiming d.i))
      | some b => Demodulator.extract pairs k { d with buffer := setFrameBit d.buffer d.i b, i := d.i + 1 }

/-- The demodulator at the start of an operation: the cursor at 0, the phase EXTRACT, the buffer as it stands (R28). -/
def Demodulator.begin (d : Demodulator) : Demodulator := { d with i := 0, phase := .extract }

/-- The extract phase on a whole request (R160). -/
def Demodulator.run (d : Demodulator) (pairs : List Pair) : Demodulator × Option DecodeError :=
  Demodulator.extract pairs Config.frameBits d.begin

/-- The verify phase (R160, R166): the shared checksum over bytes 4 to 10 of the buffer against byte 11. -/
def State.verifyBuffer (s : State) : Except DecodeError Frame × State :=
  let B := s.demodulator.buffer
  let (check, s') := s.runChecksum (frameSlice B 4 10)
  if check = B[11] then (.ok B, { s' with demodulator := { s.demodulator with phase := .done } })
  else (.error (.checksumMismatch B), s')

/-- Runs the demodulator (R160): the frame or the error, and the state after it. On a failure the phase stays where
the failure arose (DEDUCED, log 5). -/
def State.runDemodulator (s : State) (pairs : List Pair) : Except DecodeError Frame × State :=
  match s.demodulator.run pairs with
  | (d, some e) => (.error e, { s with demodulator := d })
  | (d, none) => State.verifyBuffer { s with demodulator := { d with phase := .verify } }

/-! ## Reset -/

/-- A reset of a core that has already observed something (R30, R230): the ports empty, the units at their start values.
The buffer may hold any value (R28) and is left; what has been observed stays observed (R231, log 3). -/
def State.resetCore (s : State) : State :=
  { s with
    req := none
    rsp := none
    checksumEngine := ChecksumEngine.start
    modulator := Modulator.start
    demodulator := s.demodulator.begin }

/-- The handoffs a SEND of a given repeat count had made when it was abandoned: any value from 0 to `repeat + 1`
(I10, R231, log 7). -/
def abandonedHandoffs (freeIndex : Nat) (repeatCount : BitVec 32) : Nat :=
  Config.freeHandoffs freeIndex % (repeatCount.toNat + 2)

/-- A reset while the operation of a request is in progress (R231): no response, and for SEND the handoffs already made
stay made. -/
def State.abandon (s : State) (r : Request) : State :=
  match decode r with
  | .send address command mode repeatCount =>
    let handoffs := abandonedHandoffs s.freeIndex repeatCount
    (({ s with freeIndex := s.freeIndex + 1 }).sink (modulated (builtFrame address command mode)) handoffs).resetCore
  | .buildFrame _ _ _ => s.resetCore
  | .checksum _ => s.resetCore
  | .verify _ => s.resetCore
  | .modulate _ => s.resetCore
  | .demodulate _ => s.resetCore
  | .onSignal _ => s.resetCore
  | .reserved => s.resetCore

end Sys2Proof.Machine
end

