-- ==== Sys2Proof/Machine/ChecksumEngine.lean ====
section
/-! DEFINITION. checksum_engine (42_checksum_engine.md): CHECKSUM and VERIFY. -/

namespace Sys2Proof.Machine

open Sys2Proof

/-- CHECKSUM (R121): responds OK with the checksum of exactly 7 bytes. Another length is refused (R66, R72). -/
def execChecksum (bytes : List Byte) (s : State) : Host.Outcome State Fault Refusal :=
  if bytes.length = 7 then
    let (c, s') := s.runChecksum bytes
    .next (s'.respond { status := .ok, payload := .checksum c })
  else .next s.refuse

/-- VERIFY (R122): recomputes the checksum over the first 7 of exactly 8 bytes and compares it with the last. A mismatch
is a false result, not an error. Another length is refused (R66, R72). -/
def execVerify (bytes : List Byte) (s : State) : Host.Outcome State Fault Refusal :=
  if bytes.length = 8 then
    let (c, s') := s.runChecksum (bytes.take 7)
    .next (s'.respond { status := .ok, payload := .verified (some c == bytes[7]?) })
  else .next s.refuse

end Sys2Proof.Machine
end

