-- ==== Sys2Proof/Machine/FrameBuilder.lean ====
section
/-! DEFINITION. frame_builder (41_frame_builder.md): BUILD_FRAME. -/

namespace Sys2Proof.Machine

open Sys2Proof

/-- BUILD_FRAME (R100): responds OK with the frame. Every operand is legal, and the response is its only effect
(R101). -/
def execBuildFrame (address : BitVec 16) (command mode : Byte) (s : State) : Host.Outcome State Fault Refusal :=
  let (F, s') := s.runFrameBuilder address command mode
  .next (s'.respond { status := .ok, payload := .frame F })

end Sys2Proof.Machine
end

