-- ==== Sys2Proof/Machine/LogicalApi.lean ====
section
/-! DEFINITION. The logical API boundary (45_logical_api.md), SEND and ON_SIGNAL, and the reserved selector
(30_encoding.md R72). -/

namespace Sys2Proof.Machine

open Sys2Proof

/-- SEND (R190): builds the frame, modulates it, hands the one pulse sequence to the sink `repeat + 1` times, the count
taken without wrap-around (D15), and responds OK. -/
def execSend (address : BitVec 16) (command mode : Byte) (repeatCount : BitVec 32) (s : State) :
    Host.Outcome State Fault Refusal :=
  let (F, s₁) := s.runFrameBuilder address command mode
  let (out, s₂) := s₁.runModulator F
  .next ((s₂.sink out (repeatCount.toNat + 1)).respond { status := .ok, payload := .none })

/-- ON_SIGNAL (R192): DEMODULATE's response, its success as the command and the mode, and each of its errors as
`some = false` with status OK. -/
def execOnSignal (pairs : List Pair) (s : State) : Host.Outcome State Fault Refusal :=
  let (r, s') := s.runDemodulator pairs
  .next (s'.respond (onSignalResponse (demodulateResponse r)))

/-- The reserved selector (R72): responds REFUSED and has no other effect. -/
def execReserved (s : State) : Host.Outcome State Fault Refusal :=
  .next s.refuse

end Sys2Proof.Machine
end

