-- ==== Sys2Proof/Machine/PulseDemodulator.lean ====
section
/-! DEFINITION. pulse_demodulator (44_pulse_demodulator.md): DEMODULATE. -/

namespace Sys2Proof.Machine

open Sys2Proof

/-- DEMODULATE (R160): responds OK with the frame, its command and its mode, or raises the decode error (R168). -/
def execDemodulate (pairs : List Pair) (s : State) : Host.Outcome State Fault Refusal :=
  match s.runDemodulator pairs with
  | (.ok F, s') => .next (s'.respond (decodedResponse F))
  | (.error e, s') => .next (s'.raise e)

end Sys2Proof.Machine
end

