-- ==== Sys2Proof/Machine/PulseModulator.lean ====
section
/-! DEFINITION. pulse_modulator (43_pulse_modulator.md): MODULATE. -/

namespace Sys2Proof.Machine

open Sys2Proof

/-- MODULATE (R140): responds OK with the pulse sequence of exactly 12 bytes, whatever they hold (R62). It hands nothing
to the sink (R141). Another length is refused (R66, R72). -/
def execModulate (bytes : List Byte) (s : State) : Host.Outcome State Fault Refusal :=
  match frameOfBytes bytes with
  | some F =>
    let (out, s') := s.runModulator F
    .next (s'.respond { status := .ok, payload := .pulses out.length out })
  | none => .next s.refuse

end Sys2Proof.Machine
end

