-- ==== Sys2Proof/Machine/Dispatch.lean ====
section
/-! DEFINITION. One arm for each operation of the opcode table (30_encoding.md R64). -/

namespace Sys2Proof.Machine

open Sys2Proof

/-- Carries out one operation: from the state after its request is taken to the state with its response on RSP. -/
def exec (i : Instr) (s : State) : Host.Outcome State Fault Refusal :=
  match i with
  | .buildFrame address command mode => Sys2Proof.Machine.execBuildFrame address command mode s
  | .checksum bytes => Sys2Proof.Machine.execChecksum bytes s
  | .verify bytes => Sys2Proof.Machine.execVerify bytes s
  | .modulate bytes => Sys2Proof.Machine.execModulate bytes s
  | .demodulate pairs => Sys2Proof.Machine.execDemodulate pairs s
  | .send address command mode repeatCount => Sys2Proof.Machine.execSend address command mode repeatCount s
  | .onSignal pairs => Sys2Proof.Machine.execOnSignal pairs s
  | .reserved => Sys2Proof.Machine.execReserved s

end Sys2Proof.Machine
end

