-- ==== Sys2Proof/Machine/Step.lean ====
section
/-! DEFINITION. One step of the machine (log 1): the operation of the request pending on REQ, whole and in one step
(20_memory.md R45); or, with no request pending, the next host input. -/

namespace Sys2Proof.Machine

open Sys2Proof

/-- Carries out the operation of a pending request: takes it from REQ, runs it, and records the exchange (R21, R29). -/
def State.carryOut (s : State) (r : Request) : Host.Outcome State Fault Refusal :=
  match exec (decode r) s.takeRequest with
  | .next t => .next (t.record r)
  | .fault f => .fault f
  | .refused f => .refused f

/-- The effect of one host input on a core with no request pending. -/
def State.deliver (s : State) (e : HostInput) : State :=
  match e with
  | .request r => s.writeRequest r
  | .reset => s.resetCore
  | .requestThenReset r => s.abandon r

/-- One step. With no request pending and no host input to come the core waits (R230). -/
def step (s : State) : Host.Outcome State Fault Refusal :=
  match s.req with
  | some r => s.carryOut r
  | none =>
    match s.inputs with
    | [] => .next s
    | e :: rest => .next (({ s with inputs := rest } : State).deliver e)

/-- The state with the request of an opcode-table word pending on REQ, so that the next step carries out its operation.
It stands for the host's write (log 2). -/
def State.withFetchWord (s : State) (nbits w : Nat) : State :=
  if isTableWord nbits w then { s with req := some (tableRequest (w % 2 ^ nbits)) } else s

end Sys2Proof.Machine
end

