-- ==== Sys2Proof/Machine/HostSide.lean ====
section
/-! DEFINITION. What the spec says of the host around the core: the pairing of a flat capture (30_encoding.md R68), the
two pseudo-operations it expands (R75), the device instance that holds the address (70_reset_and_hazards.md R232, R233),
programs (R240), the inverse of the modulator (43_pulse_modulator.md R143) and the pair lists the spec's laws and vectors
use (44_pulse_demodulator.md R172; 95_test_vectors.md). No meaning of an operation calls any of it. -/

namespace Sys2Proof.Machine

open Sys2Proof

/-! ## Captures and pairs -/

/-- Pairs element 2i of a flat list with element 2i+1; a trailing odd element is in no pair (R68). -/
def pairFlat : List I32 → List Pair
  | m :: s :: rest => { mark := m, space := s } :: pairFlat rest
  | [_] => []
  | [] => []

/-- The magnitudes of the entries of a pulse sequence in signed form, which the host must pass (R68, R170, R237). The spec is
silent on the entry -2^31, whose magnitude 2^31 is no i32. It wraps back to -2^31 here (log 15, DESIGN CHOICE). -/
def magnitudes (p : PulseSeq) : List I32 := p.map fun e => BitVec.ofNat 32 e.toInt.natAbs

/-- The 96 pairs that write each bit of a frame with its nominal template: bit 0 as (105, 104), bit 1 as (104, 105)
(R172, `nom` of 95_test_vectors.md). -/
def nominalPairs (F : Frame) : List Pair :=
  (List.range Config.frameBits).map fun n =>
    if frameBit F n then { mark := 104, space := 105 } else { mark := 105, space := 104 }

/-- The 96 pairs that write a bit 1 as (89, 104) and a bit 0 as (105, 104) (`edge` of 95_test_vectors.md). -/
def edgePairs (F : Frame) : List Pair :=
  (List.range Config.frameBits).map fun n =>
    if frameBit F n then { mark := 89, space := 104 } else { mark := 105, space := 104 }

/-! ## The inverse of the modulator -/

/-- The run of bits an entry stands for: `e > 0` gives `e / 105` one-bits, `e < 0` gives `-e / 104` zero-bits (R143). An
entry that no modulator output holds is the model's: 0 gives no bits, and the division rounds down (log 15, DESIGN CHOICE). -/
def entryBits (e : I32) : List Bool :=
  if 0 < e.toInt then List.replicate (e.toInt / Config.markUs).toNat true
  else List.replicate (-e.toInt / Config.spaceUs).toNat false

/-- The bits of a pulse sequence, each entry expanded back into its run (R143). -/
def expandRuns (p : PulseSeq) : List Bool := p.flatMap entryBits

/-- Packs bits most-significant first into 12 bytes (R42, R143). Of a list that has not 96 bits, missing bits are 0 and further
ones are dropped (log 15, DESIGN CHOICE). -/
def packBits (bits : List Bool) : Frame :=
  (List.range Config.frameBits).foldl (fun F n => setFrameBit F n (bits.getD n false)) resetBuffer

/-! ## Pseudo-operations -/

/-- TRANSMIT_FRAME: BUILD_FRAME, then MODULATE on the 12 bytes of that response's frame (R75). -/
def transmitFrame (address : BitVec 16) (command mode : Byte) : List Instr :=
  [.buildFrame address command mode, .modulate (builtFrame address command mode).toList]

/-- DEMODULATE_FLAT: DEMODULATE on the pairs of a flat list (R75). -/
def demodulateFlat (p : List I32) : Instr := .demodulate (pairFlat p)

/-! ## Device instances and programs -/

/-- A device instance around the core: it keeps the address, "immutable per device instance", and the repeat count, "an
external configuration" (R24, R191, R232, R233). -/
structure DeviceInstance where
  address     : BitVec 16
  repeatCount : BitVec 32
deriving DecidableEq, Repr

/-- The BUILD_FRAME a device instance issues for a named command and mode (R69, R233). -/
def DeviceInstance.buildFrame (d : DeviceInstance) (c : Config.Command) (m : Config.Mode) : Instr :=
  .buildFrame d.address (Config.commandCode c) (Config.modeCode m)

/-- The SEND a device instance issues for a named command and mode (R69, R191, R233). -/
def DeviceInstance.send (d : DeviceInstance) (c : Config.Command) (m : Config.Mode) : Instr :=
  .send d.address (Config.commandCode c) (Config.modeCode m) d.repeatCount

/-- A program, a finite sequence of requests issued by one host (R240), to come at a state. -/
def State.withProgram (s : State) (requests : List Request) : State :=
  { s with inputs := requests.map HostInput.request }

/-- The list of responses of the end state of a program (R240). -/
def State.responseLog (s : State) : List Response := s.history.map Exchange.response

/-- The list of sink handoffs of the end state of a program (R240). -/
def State.handoffs (s : State) : List PulseSeq := sinkHandoffs s.sinkLog

end Sys2Proof.Machine
end

