-- ==== Sys2Proof/Safety.lean ====
section
/-! DEFINITION. What a claim may call a good state of the core, and a legal response: the canonical form of the sink log,
the properties of a pulse sequence (30_encoding.md R67), the payload of each status (R71), and the bounds of the
local state (10_state.md R26 to R28). -/

namespace Sys2Proof.Machine

open Sys2Proof

/-- The canonical form of a sink log (log 4): no empty run, and no two neighbouring runs of one sequence. -/
def sinkLogWf : List SinkRun → Bool
  | [] => true
  | [r] => decide (0 < r.count)
  | r :: q :: rest => decide (0 < r.count) && decide (r.pulses ≠ q.pulses) && sinkLogWf (q :: rest)

/-- No two consecutive entries have the same sign (R67 b, R142 b). -/
def alternates : PulseSeq → Bool
  | [] => true
  | [_] => true
  | a :: b :: rest => decide (a.toInt.sign ≠ b.toInt.sign) && alternates (b :: rest)

/-- The three properties of a modulator output (R67). -/
def legalPulses (p : PulseSeq) : Prop :=
  (∀ e ∈ p, e.toInt ≠ 0) ∧ alternates p = true ∧ 1 ≤ p.length ∧ p.length ≤ Config.maxPulses

/-- VERIFY's test on the bytes of a whole frame (R122, R166). -/
def checksumHolds (F : Frame) : Prop := checksum (frameSlice F 4 10) = F[11]

/-- The responses an operation may give: the statuses and payloads of R71, each with the bounds it states. -/
def admits : Instr → Response → Prop
  | .buildFrame a c m, r => r = { status := .ok, payload := .frame (builtFrame a c m) }
  | .checksum bytes, r =>
    (bytes.length = 7 ∧ r = { status := .ok, payload := .checksum (checksum bytes) }) ∨
      (bytes.length ≠ 7 ∧ r = refusedResponse)
  | .verify bytes, r =>
    (bytes.length = 8 ∧ ∃ ok, r = { status := .ok, payload := .verified ok }) ∨
      (bytes.length ≠ 8 ∧ r = refusedResponse)
  | .modulate bytes, r =>
    (bytes.length = 12 ∧ ∃ p, legalPulses p ∧ r = { status := .ok, payload := .pulses p.length p }) ∨
      (bytes.length ≠ 12 ∧ r = refusedResponse)
  | .demodulate pairs, r =>
    (∃ F, checksumHolds F ∧ Config.frameBits ≤ pairs.length ∧ r = decodedResponse F) ∨
      (∃ i, i < Config.frameBits ∧ i < pairs.length ∧ r = (DecodeError.unexpectedTiming i).response) ∨
      (pairs.length < Config.frameBits ∧ r = DecodeError.truncated.response) ∨
      (∃ F, ¬ checksumHolds F ∧ Config.frameBits ≤ pairs.length ∧ r = (DecodeError.checksumMismatch F).response)
  | .send _ _ _ _, r => r = { status := .ok, payload := .none }
  | .onSignal _, r =>
    r = { status := .ok, payload := .noSignal } ∨ ∃ c m, r = { status := .ok, payload := .signal c m }
  | .reserved, r => r = refusedResponse

/-- The bounds of the local state (R26, R27, R28), and what the phase DONE says of the buffer (R160). -/
def State.unitsBounded (s : State) : Prop :=
  0 ≤ s.checksumEngine.sum ∧ s.checksumEngine.sum ≤ 1785 ∧
    -10080 ≤ s.modulator.acc ∧ s.modulator.acc ≤ 10080 ∧ s.modulator.n ≤ Config.frameBits ∧
    s.modulator.out.length ≤ Config.maxPulses ∧ s.demodulator.i ≤ Config.frameBits ∧
    (s.demodulator.phase = .done → s.demodulator.i = Config.frameBits ∧ checksumHolds s.demodulator.buffer)

/-- What every step of the core keeps: a canonical sink log of legal pulse sequences, a history in which every response
is one its request admits, a response on RSP only as the last of the history, and the bounds of the local state. -/
structure State.Inv (s : State) : Prop where
  sinkCanonical : sinkLogWf s.sinkLog = true
  sinkLegal     : ∀ run ∈ s.sinkLog, legalPulses run.pulses
  historyLegal  : ∀ e ∈ s.history, admits (decode e.request) e.response
  rspIsLast     : ∀ p, s.rsp = some p → s.history.getLast?.map Exchange.response = some p
  units         : s.unitsBounded

end Sys2Proof.Machine
end

