-- ==== Sys2Proof/Certificates/Slice0/Obligations.lean ====
section
/-! DEFINITION. The statements about the machine, each from a numbered rule of spec/ or from its sections. A result
statement gives the whole next state, so it is also the statement of what the operation leaves unchanged. -/

open Sys2Proof Sys2Proof.Machine

/-! ## frame_builder -/

/-- R100 (with the layout of R60): selector 000 reads the three operands of the operand word, and the operation answers the
frame, its checksum the two's complement of the exact sum of bytes 4 to 10. Nothing changes but RSP and the local
state of the checksum engine. -/
def Obligations.BuildFrameResult : Prop :=
  (∀ r : Request, r.op = 0b000#3 →
    decode r = .buildFrame (r.opw.extractLsb' 16 16) (r.opw.extractLsb' 8 8) (r.opw.extractLsb' 0 8)) ∧
  ∀ (address : BitVec 16) (command mode : Byte) (s : State),
    let high : Byte := address.extractLsb' 8 8
    let low : Byte := address.extractLsb' 0 8
    let sum : Int := 0x2D + 0xD4 + high.toNat + low.toNat + 0x00 + command.toNat + mode.toNat
    let F : Frame := #v[0xAA, 0xAA, 0xAA, 0xAA, 0x2D, 0xD4, high, low, 0x00, command, mode, BitVec.ofInt 8 (-sum)]
    ∃ e : ChecksumEngine, exec (.buildFrame address command mode) s = .next { s with
      rsp := some { status := .ok, payload := .frame F }
      checksumEngine := e }

/-- R102: (a) the fixed bytes, (b) the checksum invariant, and VERIFY on bytes 4 to 11 answers true. -/
def Obligations.BuiltFrameChecksumLaw : Prop :=
  ∀ (address : BitVec 16) (command mode : Byte) (s : State),
    ∃ (F : Frame) (t u : State), exec (.buildFrame address command mode) s = .next t ∧
      t.rsp = some { status := .ok, payload := .frame F } ∧
      F[0] = 0xAA ∧ F[1] = 0xAA ∧ F[2] = 0xAA ∧ F[3] = 0xAA ∧ F[4] = 0x2D ∧ F[5] = 0xD4 ∧ F[8] = 0x00 ∧
      (((frameSlice F 4 10).map BitVec.toNat).sum + F[11].toNat) % 256 = 0 ∧
      exec (.verify (frameSlice F 4 11)) s = .next u ∧ u.rsp = some { status := .ok, payload := .verified true }

/-- R103: two different operand triples give two different frames, and the operands stand at their places in FV. -/
def Obligations.BuildFrameInjective : Prop :=
  ∀ (a a' : BitVec 16) (c m c' m' : Byte) (s s' t t' : State) (F : Frame),
    exec (.buildFrame a c m) s = .next t → exec (.buildFrame a' c' m') s' = .next t' →
    t.rsp = some { status := .ok, payload := .frame F } → t'.rsp = some { status := .ok, payload := .frame F } →
    (a = a' ∧ c = c' ∧ m = m') ∧
    (frameValue F).extractLsb' 32 16 = a ∧ (frameValue F).extractLsb' 16 8 = c ∧ (frameValue F).extractLsb' 8 8 = m

/-- R61: the fields of a built frame in its 96-bit form. -/
def Obligations.BuiltFrameValueLayout : Prop :=
  ∀ (address : BitVec 16) (command mode : Byte),
    ∃ check : Byte, frameValue (builtFrame address command mode) =
      0xAAAAAAAA#32 ++ 0x2DD4#16 ++ address ++ 0x00#8 ++ command ++ mode ++ check ∧
      check = checksum [0x2D, 0xD4, address.extractLsb' 8 8, address.extractLsb' 0 8, 0x00, command, mode]

/-- R43: byte 0 stands in FV[95:88] and byte 11 in FV[7:0], and bit n of the scan order is bit 95 - n of the value form. -/
def Obligations.FrameValueBitOrder : Prop :=
  ∀ F : Frame, (frameValue F).extractLsb' 88 8 = F[0] ∧ (frameValue F).extractLsb' 0 8 = F[11] ∧
    ∀ n < 96, (frameValue F).getLsbD (95 - n) = F[n / 8]!.getLsbD (7 - n % 8)

/-! ## checksum_engine -/

/-- R120 and R121: the checksum of exactly 7 bytes, of an exact sum reduced once. Nothing changes but RSP and the local
state of the checksum engine. Another length is refused and changes nothing but RSP. -/
def Obligations.ChecksumResult : Prop :=
  (∀ r : Request, r.op = 0b001#3 → decode r = .checksum r.bytes) ∧
  ∀ (bytes : List Byte) (s : State),
    let sum := (bytes.map BitVec.toNat).sum
    (bytes.length = 7 → ∃ (c : Byte) (e : ChecksumEngine), c.toNat = (256 - sum % 256) % 256 ∧
      exec (.checksum bytes) s = .next { s with
        rsp := some { status := .ok, payload := .checksum c }
        checksumEngine := e }) ∧
    (bytes.length ≠ 7 →
      exec (.checksum bytes) s = .next { s with rsp := some { status := .refused, payload := .none } })

/-- R122: VERIFY of exactly 8 bytes compares the checksum of the first 7 with the last; a mismatch is a false result. Nothing
changes but RSP and the local state of the checksum engine. Another length is refused and changes nothing but RSP. -/
def Obligations.VerifyResult : Prop :=
  (∀ r : Request, r.op = 0b010#3 → decode r = .verify r.bytes) ∧
  (∀ (body : List Byte) (last : Byte) (s : State), body.length = 7 →
    let sum := (body.map BitVec.toNat).sum
    ∃ e : ChecksumEngine, exec (.verify (body ++ [last])) s = .next { s with
      rsp := some { status := .ok, payload := .verified (decide (last.toNat = (256 - sum % 256) % 256)) }
      checksumEngine := e }) ∧
  ∀ (bytes : List Byte) (s : State), bytes.length ≠ 8 →
    exec (.verify bytes) s = .next { s with rsp := some { status := .refused, payload := .none } }

/-- The model's choice (log 5, DESIGN CHOICE): the accumulator of the checksum engine keeps, after the operation, the exact
sum it was computed from. The spec gives the accumulator within an operation only (R26). -/
def Obligations.AccumulatorKeepsExactSum : Prop :=
  ∀ s : State,
    (∀ (address : BitVec 16) (command mode : Byte), ∃ t, exec (.buildFrame address command mode) s = .next t ∧
      t.checksumEngine.sum = (0x2D + 0xD4 + (address.extractLsb' 8 8).toNat + (address.extractLsb' 0 8).toNat + 0x00 +
        command.toNat + mode.toNat : Nat)) ∧
    (∀ bytes : List Byte, bytes.length = 7 → ∃ t, exec (.checksum bytes) s = .next t ∧
      t.checksumEngine.sum = ((bytes.map BitVec.toNat).sum : Nat)) ∧
    ∀ bytes : List Byte, bytes.length = 8 → ∃ t, exec (.verify bytes) s = .next t ∧
      t.checksumEngine.sum = (((bytes.take 7).map BitVec.toNat).sum : Nat)

/-- R124: VERIFY answers true exactly when the eight bytes sum to a multiple of 256. -/
def Obligations.VerifyIffSumZero : Prop :=
  ∀ (v : List Byte) (s : State), v.length = 8 →
    ∃ t ok, exec (.verify v) s = .next t ∧ t.rsp = some { status := .ok, payload := .verified ok } ∧
      (ok = true ↔ (v.map BitVec.toNat).sum % 256 = 0)

/-- R125: flipping any one bit of any of the eight bytes turns true into false. -/
def Obligations.SingleBitFlipDetected : Prop :=
  ∀ (v : List Byte) (s t : State) (j k : Nat) (b : Byte), v.length = 8 → k < 8 → v[j]? = some b →
    exec (.verify v) s = .next t → t.rsp = some { status := .ok, payload := .verified true } →
    ∃ u, exec (.verify (v.set j (b ^^^ (1#8 <<< k)))) s = .next u ∧
      u.rsp = some { status := .ok, payload := .verified false }

/-- R126: (a) two changes whose sum differences cancel, and (b) a reordering, leave VERIFY's answer as it is; (c) bytes 0 to 3
of a frame are not covered: two captures that differ in those bytes only both decode or both fail the checksum. -/
def Obligations.ChecksumBlindSpots : Prop :=
  (∀ (v w : List Byte) (s : State), v.length = 8 → w.length = 8 →
    (v.map BitVec.toNat).sum % 256 = (w.map BitVec.toNat).sum % 256 →
    ∃ t u, exec (.verify v) s = .next t ∧ exec (.verify w) s = .next u ∧ t.rsp = u.rsp ∧ t.rsp ≠ none) ∧
  (∀ (v w : List Byte) (s : State), v.length = 8 → v.Perm w →
    ∃ t u, exec (.verify v) s = .next t ∧ exec (.verify w) s = .next u ∧ t.rsp = u.rsp ∧ t.rsp ≠ none) ∧
  ∀ (F G : Frame) (s : State), (∀ k : Fin 12, 4 ≤ k.val → F[k] = G[k]) →
    ∃ t u p q, exec (.demodulate (edgePairs F)) s = .next t ∧ exec (.demodulate (edgePairs G)) s = .next u ∧
      t.rsp = some p ∧ u.rsp = some q ∧ p.status = q.status

/-! ## pulse_modulator -/

/-- R140: MODULATE of exactly 12 bytes, whatever they hold, answers the fold of R140 over the 96 bits in scan order: pulses of
one sign are summed, a change of sign ends a run, and the last run is flushed. Nothing changes but RSP and the modulator's
local state. Another length is refused and changes nothing but RSP. -/
def Obligations.ModulateResult : Prop :=
  (∀ r : Request, r.op = 0b011#3 → decode r = .modulate r.bytes) ∧
  (∀ (F : Frame) (s : State), ∃ (out : List I32) (m : Modulator),
    exec (.modulate F.toList) s = .next { s with
      rsp := some { status := .ok, payload := .pulses out.length out }
      modulator := m } ∧
    let folded : Int × List Int := ((List.range 96).map fun n => F[n / 8]!.getLsbD (7 - n % 8)).foldl
      (fun (x : Int × List Int) (b : Bool) =>
        let p : Int := if b then 105 else -104
        if x.1 = 0 ∨ x.1.sign = p.sign then (x.1 + p, x.2) else (p, x.2 ++ [x.1])) (0, [])
    out.map BitVec.toInt = if folded.1 ≠ 0 then folded.2 ++ [folded.1] else folded.2) ∧
  ∀ (bytes : List Byte) (s : State), bytes.length ≠ 12 →
    exec (.modulate bytes) s = .next { s with rsp := some { status := .refused, payload := .none } }

/-- R142, on the answer of MODULATE to any 12 bytes: (a) no entry is 0; (b) neighbours have opposite signs; (c) an entry is a
whole number of marks or of spaces, and expanding every entry gives the 96 bits in scan order, so that by (b) each entry is
a maximal run; (d) the length counts the changes of bit; (e) the two sums; (f) the first sign. -/
def Obligations.ModulateLaws : Prop :=
  ∀ (F : Frame) (s : State), ∃ (t : State) (out : List I32),
    exec (.modulate F.toList) s = .next t ∧
    t.rsp = some { status := .ok, payload := .pulses out.length out } ∧
    (∀ e ∈ out, e.toInt ≠ 0) ∧
    (∀ k x y, out[k]? = some x → out[k + 1]? = some y → x.toInt.sign = -y.toInt.sign) ∧
    (∀ e ∈ out, ∃ r : Nat, 1 ≤ r ∧ (e.toInt = 105 * r ∨ e.toInt = -104 * r)) ∧
    expandRuns out = (List.range 96).map (frameBit F) ∧
    out.length = 1 + ((List.range 95).countP fun j => frameBit F (j + 1) != frameBit F j) ∧
    1 ≤ out.length ∧ out.length ≤ 96 ∧
    ((out.map BitVec.toInt).filter (0 < ·)).sum = 105 * (((List.range 96).map (frameBit F)).count true : Int) ∧
    ((out.map BitVec.toInt).filter (· < 0)).sum = -104 * (((List.range 96).map (frameBit F)).count false : Int) ∧
    ∀ e, out[0]? = some e → (0 < e.toInt ↔ F[0].getLsbD 7 = true)

/-- R143: a frame is recovered from its pulse sequence by expanding each entry into its run and packing the bits, so MODULATE
is injective. -/
def Obligations.ModulateRecoverable : Prop :=
  (∀ (F : Frame) (s : State), ∃ (t : State) (out : List I32), exec (.modulate F.toList) s = .next t ∧
    t.rsp = some { status := .ok, payload := .pulses out.length out } ∧ packBits (expandRuns out) = F) ∧
  ∀ (F G : Frame) (s s' t u : State), exec (.modulate F.toList) s = .next t → exec (.modulate G.toList) s' = .next u →
    t.rsp = u.rsp → F = G

/-- R144: the first 41 entries of the pulse sequence of every built frame, and the space that follows them. -/
def Obligations.BuiltFramePulsePrefix : Prop :=
  ∀ (address : BitVec 16) (command mode : Byte) (s : State), ∃ (F : Frame) (t u : State) (out : List I32) (e : I32),
    exec (.buildFrame address command mode) s = .next u ∧ u.rsp = some { status := .ok, payload := .frame F } ∧
    exec (.modulate F.toList) s = .next t ∧
    t.rsp = some { status := .ok, payload := .pulses out.length out } ∧
    (out.take 31).map BitVec.toInt = (List.range 31).map (fun k => if k % 2 = 0 then 105 else -104) ∧
    ((out.take 41).drop 31).map BitVec.toInt = [-312, 105, -104, 210, -104, 315, -104, 105, -104, 105] ∧
    out[41]? = some e ∧ e.toInt ≤ -208

/-! ## pulse_demodulator -/

/-- R162: both bounds of a window are inclusive. -/
def Obligations.WindowBounds : Prop :=
  (∀ (d : I32) (nominal : Int), inWindow d nominal = true ↔ nominal - 15 ≤ d.toInt ∧ d.toInt ≤ nominal + 15) ∧
  (∀ d : I32, inWindow d Config.markUs = true ↔ 90 ≤ d.toInt ∧ d.toInt ≤ 120) ∧
  (∀ d : I32, inWindow d Config.spaceUs = true ↔ 89 ≤ d.toInt ∧ d.toInt ≤ 119)

/-- R164: which pairs decode to bit 1, which to bit 0, and which to neither. -/
def Obligations.PairClassification : Prop :=
  (∀ p : Pair, classify p = some true ↔
    (p.mark.toInt = 89 ∧ 90 ≤ p.space.toInt ∧ p.space.toInt ≤ 120) ∨
    (89 ≤ p.mark.toInt ∧ p.mark.toInt ≤ 119 ∧ p.space.toInt = 120)) ∧
  (∀ p : Pair, classify p = some false ↔
    90 ≤ p.mark.toInt ∧ p.mark.toInt ≤ 120 ∧ 89 ≤ p.space.toInt ∧ p.space.toInt ≤ 119) ∧
  (∀ (p : Pair) (s : State), classify p = none → ∃ t, exec (.demodulate [p]) s = .next t ∧
    t.rsp = some { status := .unexpectedTiming, payload := .index 0 }) ∧
  classify { mark := 104, space := 105 } = some false

/-- R160 and R168: the pairs are classified in index order and the first failure ends the operation; 96 classified bits are
packed most-significant first and verified, and a mismatch answers all 12 bytes. Nothing changes but RSP and the local
state of the demodulator and the checksum engine. -/
def Obligations.DemodulateResult : Prop :=
  (∀ r : Request, r.op = 0b100#3 → decode r = .demodulate r.pairs) ∧
  ∀ (pairs : List Pair) (s : State), ∃ (p : Response) (d : Demodulator) (c : ChecksumEngine),
    exec (.demodulate pairs) s = .next { s with rsp := some p, demodulator := d, checksumEngine := c } ∧
    (∀ (i : Nat) (q : Pair), i < 96 → pairs[i]? = some q → classify q = none →
      (∀ j < i, ∀ x, pairs[j]? = some x → classify x ≠ none) →
      p = { status := .unexpectedTiming, payload := .index (BitVec.ofNat 7 i) }) ∧
    (pairs.length < 96 → (∀ x ∈ pairs, classify x ≠ none) → p = { status := .truncated, payload := .none }) ∧
    (∀ F : Frame, (∀ n < 96, ∃ x, pairs[n]? = some x ∧ classify x = some (frameBit F n)) →
      (checksum [F[4], F[5], F[6], F[7], F[8], F[9], F[10]] = F[11] →
        p = { status := .ok, payload := .decoded F F[9] F[10] }) ∧
      (checksum [F[4], F[5], F[6], F[7], F[8], F[9], F[10]] ≠ F[11] →
        p = { status := .checksumMismatch, payload := .decodedBytes F }))

/-- R165: the pairs with index 96 or more are not examined: the whole next state is the one without them. -/
def Obligations.PairsBeyond96Ignored : Prop :=
  ∀ (pairs extra : List Pair) (s : State), pairs.length = 96 →
    exec (.demodulate (pairs ++ extra)) s = exec (.demodulate pairs) s ∧
    exec (.onSignal (pairs ++ extra)) s = exec (.onSignal pairs) s

/-- R170: a negative duration lies in no window, and a pair with one, in reach of the demodulator and with the pairs before it
classified, gives UnexpectedTiming at its index. -/
def Obligations.NegativeDurationRejected : Prop :=
  (∀ d : I32, d.toInt < 0 → inWindow d Config.markUs = false ∧ inWindow d Config.spaceUs = false) ∧
  ∀ (pairs : List Pair) (s : State) (i : Nat) (q : Pair), i < 96 → pairs[i]? = some q →
    (q.mark.toInt < 0 ∨ q.space.toInt < 0) → (∀ j < i, ∀ x, pairs[j]? = some x → classify x ≠ none) →
    ∃ t, exec (.demodulate pairs) s = .next t ∧
      t.rsp = some { status := .unexpectedTiming, payload := .index (BitVec.ofNat 7 i) }

/-- R171: 96 pairs that each lie in [90, 120] × [89, 119] give an all-zero frame that passes the checksum. -/
def Obligations.AllZeroFalsePositive : Prop :=
  ∀ (pairs : List Pair) (s : State),
    (∀ n < 96, ∃ x, pairs[n]? = some x ∧
      90 ≤ x.mark.toInt ∧ x.mark.toInt ≤ 120 ∧ 89 ≤ x.space.toInt ∧ x.space.toInt ≤ 119) →
    ∃ (t : State) (F : Frame), exec (.demodulate pairs) s = .next t ∧
      t.rsp = some { status := .ok, payload := .decoded F 0x00 0x00 } ∧ ∀ k : Fin 12, F[k] = 0x00

/-- R172: the round trip over the nominal templates answers OK with command 0x00 and mode 0x00, so it never recovers a built
frame, and command and mode come back right only when both are 0x00. -/
def Obligations.NominalRoundTripFails : Prop :=
  ∀ (address : BitVec 16) (command mode : Byte) (s : State), ∃ (F G : Frame) (t u : State) (c m : Byte),
    exec (.buildFrame address command mode) s = .next u ∧ u.rsp = some { status := .ok, payload := .frame F } ∧
    exec (.demodulate (nominalPairs F)) s = .next t ∧
    t.rsp = some { status := .ok, payload := .decoded G c m } ∧ c = 0x00 ∧ m = 0x00 ∧ G ≠ F ∧
    (c = command ∧ m = mode ↔ command = 0x00 ∧ mode = 0x00)

/-- From R160, R164 and R166: the pairs (89, 104) and (105, 104) write the bits 1 and 0, so every frame with a right checksum
is recovered from them with its command and mode, and every other frame is answered as evidence. -/
def Obligations.EdgePairsDecode : Prop :=
  (∀ (F : Frame) (s : State), ∃ t, exec (.demodulate (edgePairs F)) s = .next t ∧
    t.rsp = some (if (((frameSlice F 4 11).map BitVec.toNat).sum) % 256 = 0
      then { status := .ok, payload := .decoded F F[9] F[10] }
      else { status := .checksumMismatch, payload := .decodedBytes F })) ∧
  ∀ (address : BitVec 16) (command mode : Byte) (s : State), ∃ (F : Frame) (t u : State),
    exec (.buildFrame address command mode) s = .next u ∧ u.rsp = some { status := .ok, payload := .frame F } ∧
    exec (.onSignal (edgePairs F)) s = .next t ∧
    t.rsp = some { status := .ok, payload := .signal command mode }

/-! ## Logical API -/

/-- R190: SEND hands the pulse sequence of the built frame to the sink `repeat + 1` times, counted without wrap-around, and
answers OK. The frame is the one BUILD_FRAME answers and the sequence the one MODULATE answers. Nothing else changes
but the local state of the two units it uses. -/
def Obligations.SendResult : Prop :=
  (∀ r : Request, r.op = 0b101#3 →
    decode r = .send (r.opw.extractLsb' 16 16) (r.opw.extractLsb' 8 8) (r.opw.extractLsb' 0 8) r.repeatCount) ∧
  ∀ (address : BitVec 16) (command mode : Byte) (repeatCount : BitVec 32) (s : State),
    ∃ (F : Frame) (P : PulseSeq) (log : List SinkRun) (c : ChecksumEngine) (m : Modulator) (t u : State),
      exec (.buildFrame address command mode) s = .next t ∧ t.rsp = some { status := .ok, payload := .frame F } ∧
      exec (.modulate F.toList) s = .next u ∧ u.rsp = some { status := .ok, payload := .pulses P.length P } ∧
      exec (.send address command mode repeatCount) s = .next { s with
        rsp := some { status := .ok, payload := .none }
        sinkLog := log
        checksumEngine := c
        modulator := m } ∧
      sinkHandoffs log = sinkHandoffs s.sinkLog ++ List.replicate (repeatCount.toNat + 1) P

/-- R192: ON_SIGNAL answers the command and the mode of DEMODULATE's success, and `some = false` with status OK for each of
its errors. It leaves exactly the state DEMODULATE leaves, but for RSP. -/
def Obligations.OnSignalResult : Prop :=
  (∀ r : Request, r.op = 0b110#3 → decode r = .onSignal r.pairs) ∧
  ∀ (pairs : List Pair) (s : State), ∃ (t : State) (q p : Response),
    exec (.demodulate pairs) s = .next t ∧ t.rsp = some q ∧
    exec (.onSignal pairs) s = .next { t with rsp := some p } ∧
    (∀ F c m, q = { status := .ok, payload := .decoded F c m } → p = { status := .ok, payload := .signal c m }) ∧
    (q.status ≠ .ok → p = { status := .ok, payload := .noSignal }) ∧
    (q.status = .ok → ∃ F c m, q = { status := .ok, payload := .decoded F c m })

/-! ## Requests and responses -/

/-- R72: the reserved selector, and a byte list of a length R66 does not fix, are answered REFUSED with no other effect; no
status has a code from 100 to 110. -/
def Obligations.ReservedAndMalformedRefused : Prop :=
  (∀ r : Request, r.op = 0b111#3 → decode r = .reserved) ∧
  (∀ s : State, exec .reserved s = .next { s with rsp := some { status := .refused, payload := .none } }) ∧
  (∀ (r : Request) (s : State),
    ((r.op = 0b001#3 ∧ r.bytes.length ≠ 7) ∨ (r.op = 0b010#3 ∧ r.bytes.length ≠ 8) ∨
      (r.op = 0b011#3 ∧ r.bytes.length ≠ 12) ∨ r.op = 0b111#3) →
    exec (decode r) s = .next { s with rsp := some { status := .refused, payload := .none } }) ∧
  ∀ st : Status, st.code ≠ 0b100#3 ∧ st.code ≠ 0b101#3 ∧ st.code ≠ 0b110#3

/-- R70: the code of each status, no two with one code, and the codes 100 to 110 unused. -/
def Obligations.StatusCodes : Prop :=
  Status.ok.code = 0b000#3 ∧ Status.unexpectedTiming.code = 0b001#3 ∧ Status.truncated.code = 0b010#3 ∧
  Status.checksumMismatch.code = 0b011#3 ∧ Status.refused.code = 0b111#3 ∧
  (∀ st : Status, Status.ofCode st.code = some st) ∧
  Status.ofCode 0b100#3 = none ∧ Status.ofCode 0b101#3 = none ∧ Status.ofCode 0b110#3 = none

/-- R71: every response has the status and the payload its operation may give, within the bounds the table states. -/
def Obligations.ResponsePayloadsLegal : Prop :=
  ∀ (i : Instr) (s : State), ∃ t p, exec i s = .next t ∧ t.rsp = some p ∧ admits i p

/-- R201: BUILD_FRAME, CHECKSUM, VERIFY, MODULATE and SEND never return an error status on a well-formed request. -/
def Obligations.EncodingRaisesNoError : Prop :=
  ∀ (i : Instr) (s : State), i.wellFormed = true → (∀ pairs, i ≠ .demodulate pairs) →
    ∃ t p, exec i s = .next t ∧ t.rsp = some p ∧ p.status = .ok

/-- From R64 to R68: decoding the request that encodes an operation gives the operation back, every operand at every value. -/
def Obligations.DecodeInvertsEncode : Prop :=
  ∀ i : Instr, decode (encode i) = i

/-- From R22 and R73: two requests that agree in the selector and in the fields its operation uses are the same operation. -/
def Obligations.UnusedFieldsIgnored : Prop :=
  ∀ r r' : Request, r.op = r'.op →
    (r.op = 0b000#3 ∨ r.op = 0b101#3 → r.opw = r'.opw) → (r.op = 0b101#3 → r.repeatCount = r'.repeatCount) →
    (r.op = 0b001#3 ∨ r.op = 0b010#3 ∨ r.op = 0b011#3 → r.bytes = r'.bytes) →
    (r.op = 0b100#3 ∨ r.op = 0b110#3 → r.pairs = r'.pairs) →
    ∀ s, exec (decode r) s = exec (decode r') s

/-- From R64 and R65: one request of each row of the opcode table, its fields written out from the spec's encodings. -/
def Obligations.DecodedRequests : Prop :=
  decode { op := 0b000, opw := 0xF9CB1101, repeatCount := 0, bytes := [], pairs := [] } = .buildFrame 0xF9CB 0x11 0x01 ∧
  decode { op := 0b001, opw := 0, repeatCount := 0, bytes := [0x12, 0x34], pairs := [] } = .checksum [0x12, 0x34] ∧
  decode { op := 0b010, opw := 0, repeatCount := 0, bytes := [0x2D], pairs := [] } = .verify [0x2D] ∧
  decode { op := 0b011, opw := 0, repeatCount := 0, bytes := [0xAA], pairs := [] } = .modulate [0xAA] ∧
  decode { op := 0b100, opw := 0, repeatCount := 0, bytes := [], pairs := [⟨105, 104⟩] } = .demodulate [⟨105, 104⟩] ∧
  decode { op := 0b101, opw := 0x12345678, repeatCount := 1, bytes := [], pairs := [] } = .send 0x1234 0x56 0x78 1 ∧
  decode { op := 0b110, opw := 0, repeatCount := 0, bytes := [], pairs := [⟨89, 104⟩] } = .onSignal [⟨89, 104⟩] ∧
  decode { op := 0b111, opw := 5, repeatCount := 5, bytes := [5], pairs := [⟨5, 5⟩] } = .reserved

/-! ## Steps, reset and runs -/

/-- R21, R45: with a request pending, the step takes it from REQ, is exec of the operation it decodes to, and records the
exchange of the request with the response exec placed on RSP. That the ports are emptied first is the model's choice
(log 1), and that the history is a field of the state is log 3's. -/
def Obligations.StepRunsDecodedOperation : Prop :=
  ∀ (s : State) (r : Request), s.req = some r →
    ∃ t p, exec (decode r) { s with req := none, rsp := none } = .next t ∧ t.rsp = some p ∧
      step s = .next { t with history := s.history ++ [{ request := r, response := p }] }

/-- The model's step with no request pending (log 1 and log 2): it waits, or takes one host input: a request is written on REQ
and the earlier response is gone. -/
def Obligations.StepWaitsOrTakesInput : Prop :=
  ∀ s : State, s.req = none →
    (s.inputs = [] → step s = .next s) ∧
    ∀ r rest, s.inputs = .request r :: rest → step s = .next { s with req := some r, rsp := none, inputs := rest }

/-- From R30 and R230: a reset between operations leaves no request and no response pending and the units at their start
values. The model's choices in it: a reset that arrives between operations, taken from the list of host inputs with the rest
left to come (log 2, where the spec's D16 names no reset input beyond power-up); one input for each step (log 1); the unit
values held in the state between operations (log 5); what has been observed stays (log 3), and so does the free counter
(log 7). The buffer may hold any value (R28). -/
def Obligations.ResetBetweenOperations : Prop :=
  ∀ (s : State) (rest : List HostInput), s.req = none → s.inputs = .reset :: rest →
    ∃ B : Frame, step s = .next { s with
      req := none
      rsp := none
      inputs := rest
      checksumEngine := { sum := 0 }
      modulator := { acc := 0, out := [], n := 0 }
      demodulator := { i := 0, buffer := B, phase := .extract } }

/-- From R231: a reset while an operation is in progress abandons it: no response is given, and of a SEND some number of the
handoffs, from none to all, stay made. The number is a free value of the model (log 7): the statement holds for every
value of it. The model's choices in it: the input that brings the request and its reset, with the rest left to come
(log 2); one input for each step (log 1); the history as a field that stays as it was (log 3). -/
def Obligations.ResetAbandonsOperation : Prop :=
  ∀ (s : State) (r : Request) (rest : List HostInput), s.req = none → s.inputs = .requestThenReset r :: rest →
    ∃ t, step s = .next t ∧ t.req = none ∧ t.rsp = none ∧ t.history = s.history ∧ t.inputs = rest ∧
      (∀ a c m k, decode r = .send a c m k → ∃ n, n ≤ k.toNat + 1 ∧
        sinkHandoffs t.sinkLog = sinkHandoffs s.sinkLog ++ List.replicate n (modulated (builtFrame a c m))) ∧
      ((∀ a c m k, decode r ≠ .send a c m k) → t.sinkLog = s.sinkLog)

/-- From R200, R205 and R173, by two readings of the model: no step faults or refuses (log 8, DEDUCED), and a machine with
nothing to do waits (log 1, DESIGN CHOICE). So every state has a next state. -/
def Obligations.StepNeverStops : Prop :=
  ∀ s : State, ∃ t, step s = .next t

/-- From R20: the result of every operation is a function of its request alone: of the state, nothing bears on the response or
on what is handed to the sink, the starting content of the bit buffer (R28) included. The last clauses are about the
model's own fields, not in R20's words: the history (log 3), the request gone from REQ (log 1), the host inputs (log 2) and
the free counter (log 7). -/
def Obligations.ResultIsFunctionOfRequest : Prop :=
  ∃ (f : Request → Response) (g : Request → List PulseSeq), ∀ (s : State) (r : Request), s.req = some r →
    ∃ t, step s = .next t ∧ t.rsp = some (f r) ∧ t.history = s.history ++ [{ request := r, response := f r }] ∧
      sinkHandoffs t.sinkLog = sinkHandoffs s.sinkLog ++ g r ∧ t.req = none ∧ t.inputs = s.inputs ∧
      t.freeIndex = s.freeIndex

/-- From R29, R141 and R231: the sink gets something only from a SEND, run or abandoned, and handoffs made stay made. That the
history survives every step, a reset event included, is the model's choice (log 3), and so is the input that brings a
reset (log 2). -/
def Obligations.OnlySendReachesSink : Prop :=
  ∀ s t : State, step s = .next t →
    s.history <+: t.history ∧ sinkHandoffs s.sinkLog <+: sinkHandoffs t.sinkLog ∧
    (t.sinkLog ≠ s.sinkLog → ∃ r a c m k, decode r = .send a c m k ∧
      (s.req = some r ∨ (s.req = none ∧ ∃ rest, s.inputs = .requestThenReset r :: rest)))

/-- From R67, R71, R26 to R28 and R160: every step, from every state, keeps the invariant. Its clauses that rest on the model:
the canonical form of the sink log (log 4); the phase DONE means 96 bits with a checksum that holds, since a failed decode
never reaches DONE (log 5, DEDUCED) and the local state keeps its last values (log 5, DESIGN CHOICE); the response on RSP
is the last of the history (log 1 and log 3). -/
def Obligations.StepKeepsInvariant : Prop :=
  ∀ s t : State, s.Inv → step s = .next t → t.Inv

/-- The invariant holds of the reset state, whose values are R30's and, for the bit buffer and the model's own fields, the
model's (log 2, log 3, log 6). -/
def Obligations.ResetMeetsInvariant : Prop :=
  State.reset.Inv

/-- From R30: no request and no response pending, the accumulators 0, the output empty, the cursors 0, the phase EXTRACT. The
bit buffer is left out: its reset value is the model's choice (log 6), as are those of the model's own fields. -/
def Obligations.ResetValues : Prop :=
  State.reset.req = none ∧ State.reset.rsp = none ∧ State.reset.checksumEngine.sum = 0 ∧
  State.reset.modulator.acc = 0 ∧ State.reset.modulator.out = [] ∧ State.reset.modulator.n = 0 ∧
  State.reset.demodulator.i = 0 ∧ State.reset.demodulator.phase = .extract

/-- From R240 and R20: a finite sequence of requests, whatever it is and whatever the state it comes at, ends with the list of
its responses, each the one its request alone gives, and the list of its sink handoffs, in order. The model's choices in it:
two steps for each request (log 1), a program as a list of host inputs (log 2), the end state as fields (log 3). -/
def Obligations.RequestSequenceEndState : Prop :=
  ∃ (f : Request → Response) (g : Request → List PulseSeq), ∀ (requests : List Request) (s : State), s.req = none →
    ∃ t : State, Host.Core.run Sys2Proof.core (2 * requests.length) (s.withProgram requests) = .next t ∧
      t.history = s.history ++ requests.map (fun r => { request := r, response := f r }) ∧
      t.handoffs = s.handoffs ++ requests.flatMap g ∧ t.req = none ∧ t.inputs = []

/-- From R47, in the model's terms: the response of each operation is the one it gives when run alone, whatever the order, so
two orders of the same requests give the same exchanges up to that order. The run of two steps for each request is the
model's choice (log 1), and so are the interleaving as a list of host inputs (log 2) and the history (log 3). -/
def Obligations.OrderDoesNotMatter : Prop :=
  ∀ (requests requests' : List Request) (s : State), s.req = none → requests.Perm requests' →
    ∃ t t' : State,
      Host.Core.run Sys2Proof.core (2 * requests.length) (s.withProgram requests) = .next t ∧
      Host.Core.run Sys2Proof.core (2 * requests'.length) (s.withProgram requests') = .next t' ∧
      t.history.Perm t'.history ∧ t.handoffs.Perm t'.handoffs

/-- The canonical form of the sink log (log 4): one sequence of handoffs has one log. -/
def Obligations.SinkLogCanonical : Prop :=
  ∀ x y : List SinkRun, sinkLogWf x = true → sinkLogWf y = true → sinkHandoffs x = sinkHandoffs y → x = y

/-! ## The host's side -/

/-- From R68 and R75: a flat list is paired in order, with ⌊M/2⌋ pairs, and a trailing odd element is dropped. -/
def Obligations.FlatListPairing : Prop :=
  ∀ p : List I32, (pairFlat p).length = p.length / 2 ∧
    ∀ i x, (pairFlat p)[i]? = some x → p[2 * i]? = some x.mark ∧ p[2 * i + 1]? = some x.space

/-- From R75: TRANSMIT_FRAME is BUILD_FRAME, then MODULATE on the 12 bytes of that response's frame. -/
def Obligations.TransmitFrameExpansion : Prop :=
  ∀ (address : BitVec 16) (command mode : Byte) (s : State), ∃ (F : Frame) (t : State),
    exec (.buildFrame address command mode) s = .next t ∧ t.rsp = some { status := .ok, payload := .frame F } ∧
    transmitFrame address command mode = [.buildFrame address command mode, .modulate F.toList]
end

