-- ==== Sys2Proof/Laws/Checksum.lean ====
section
/-! SUPPORT. What the checksum engine computes (42_checksum_engine.md R120, R124). -/

namespace Sys2Proof.Machine

open Sys2Proof

/-- The exact sum of a byte list (R9: no wrap-around). -/
def byteSum (bytes : List Byte) : Nat := (bytes.map BitVec.toNat).sum

@[simp] theorem byteSum_nil : byteSum [] = 0 := rfl

@[simp] theorem byteSum_cons (b : Byte) (bytes : List Byte) : byteSum (b :: bytes) = b.toNat + byteSum bytes := by
  simp [byteSum]

@[simp] theorem byteSum_append (x y : List Byte) : byteSum (x ++ y) = byteSum x + byteSum y := by
  simp [byteSum]

theorem byteSum_le (bytes : List Byte) : byteSum bytes ≤ 255 * bytes.length := by
  induction bytes with
  | nil => simp
  | cons b rest ih =>
    have := b.isLt
    simp only [byteSum_cons, List.length_cons]
    omega

theorem byteSum_perm {x y : List Byte} (h : x.Perm y) : byteSum x = byteSum y :=
  (h.map _).sum_eq

theorem foldl_add_sum (bytes : List Byte) (e : ChecksumEngine) :
    (bytes.foldl ChecksumEngine.add e).sum = e.sum + byteSum bytes := by
  induction bytes generalizing e with
  | nil => simp
  | cons b rest ih => simp [ih, ChecksumEngine.add]; omega

/-- The accumulator holds the exact sum (R120). -/
@[simp] theorem addAll_sum (bytes : List Byte) : (ChecksumEngine.addAll bytes).sum = byteSum bytes := by
  simp [ChecksumEngine.addAll, foldl_add_sum, ChecksumEngine.start]

theorem checksum_eq (bytes : List Byte) : checksum bytes = BitVec.ofInt 8 (-(byteSum bytes : Int)) := by
  simp [checksum, ChecksumEngine.result]

/-- `Checksum(b) = (256 - (s mod 256)) mod 256` (R120). -/
theorem checksum_toNat (bytes : List Byte) : (checksum bytes).toNat = (256 - byteSum bytes % 256) % 256 := by
  rw [checksum_eq, BitVec.toNat_ofInt]
  omega

/-- The checksum is the one byte that makes the sum a multiple of 256 (R124). -/
theorem checksum_eq_iff (bytes : List Byte) (c : Byte) :
    checksum bytes = c ↔ (byteSum bytes + c.toNat) % 256 = 0 := by
  rw [← BitVec.toNat_inj, checksum_toNat]
  have := c.isLt
  omega

/-- The internal sum of seven bytes is at most 1785 (R26). -/
theorem addAll_sum_bounds (bytes : List Byte) (h : bytes.length ≤ 7) :
    0 ≤ (ChecksumEngine.addAll bytes).sum ∧ (ChecksumEngine.addAll bytes).sum ≤ 1785 := by
  have := byteSum_le bytes
  rw [addAll_sum]
  omega

theorem frameSlice_body (F : Frame) : frameSlice F 4 10 = [F[4], F[5], F[6], F[7], F[8], F[9], F[10]] := by
  obtain ⟨⟨l⟩, h⟩ := F
  match l, h with
  | [_, _, _, _, _, _, _, _, _, _, _, _], _ => rfl

/-- The body of a built frame is what its checksum is taken over (R100). -/
theorem frameSlice_builtFrame (a : BitVec 16) (c m : Byte) : frameSlice (builtFrame a c m) 4 10 = frameBody a c m := rfl

end Sys2Proof.Machine
end

