-- ==== Sys2Proof/Laws/Operands.lean ====
section
/-! SUPPORT. What reading and writing a bit of a frame do, and which pairs classify as which bit. -/

namespace Sys2Proof.Machine

open Sys2Proof

theorem frameByte_eq (F : Frame) (k : Nat) (h : k < 12) : frameByte F k = F[k] := by
  simp [frameByte, h]

/-- A frame is its 12 bytes. -/
theorem frame_ext_bytes {F G : Frame} (h : ∀ k < 12, frameByte F k = frameByte G k) : F = G := by
  refine Vector.ext fun k hk => ?_
  have := h k hk
  rwa [frameByte_eq F k hk, frameByte_eq G k hk] at this

/-- A frame is its 96 bits. -/
theorem frame_ext_bits {F G : Frame} (h : ∀ n < 96, frameBit F n = frameBit G n) : F = G := by
  refine frame_ext_bytes fun k hk => BitVec.eq_of_getLsbD_eq fun j hj => ?_
  have hn := h (8 * k + (7 - j)) (by omega)
  have e1 : (8 * k + (7 - j)) / 8 = k := by omega
  have e2 : 7 - (8 * k + (7 - j)) % 8 = j := by omega
  simp only [frameBit, e1, e2] at hn
  rwa [frameByte_eq F k hk, frameByte_eq G k hk] at *

theorem setByteBit_getLsbD : ∀ (v : Byte) (k : Fin 8) (b : Bool) (j : Fin 8),
    (setByteBit v k b).getLsbD j = if (j : Nat) = k then b else v.getLsbD j := by
  intro v k b j
  fin_cases k <;> fin_cases j <;> cases b <;> simp [setByteBit]

@[simp] theorem frameByte_setFrameBit (F : Frame) (n k : Nat) (b : Bool) (hk : k < 12) :
    frameByte (setFrameBit F n b) k =
      if n / 8 = k then setByteBit (frameByte F k) (7 - n % 8) b else frameByte F k := by
  by_cases h : n / 8 = k
  · subst h
    simp [frameByte, setFrameBit, hk]
  · simp [frameByte, setFrameBit, hk, h]

/-- Writing one bit of a frame changes that bit and no other. -/
theorem frameBit_setFrameBit (F : Frame) (n m : Nat) (b : Bool) (hm : m < 96) :
    frameBit (setFrameBit F n b) m = if m = n then b else frameBit F m := by
  have hk : m / 8 < 12 := by omega
  unfold frameBit
  rw [frameByte_setFrameBit F n (m / 8) b hk]
  by_cases hb : n / 8 = m / 8
  · have := setByteBit_getLsbD (frameByte F (m / 8)) ⟨7 - n % 8, by omega⟩ b ⟨7 - m % 8, by omega⟩
    simp only at this
    rw [if_pos hb, this]
    refine if_congr ?_ rfl rfl
    omega
  · rw [if_neg hb, if_neg (by omega)]

/-- `bit(F, n) = FV[95 - n]` (R43). -/
theorem frameValue_getLsbD (F : Frame) (n : Nat) (hn : n < 96) :
    (frameValue F).getLsbD (95 - n) = frameBit F n := by
  simp only [frameValue, frameBit, BitVec.getLsbD_append]
  interval_cases n <;> simp [frameByte]

/-- A byte list of length 12 is a frame. -/
theorem exists_frame_of_length (bytes : List Byte) (h : bytes.length = 12) : ∃ F : Frame, F.toList = bytes :=
  ⟨⟨bytes.toArray, by simpa using h⟩, by simp [Vector.toList]⟩

theorem frameOfBytes_toList (F : Frame) : frameOfBytes F.toList = some F := by
  obtain ⟨⟨l⟩, h⟩ := F
  match l, h with
  | [_, _, _, _, _, _, _, _, _, _, _, _], _ => rfl

theorem frameOfBytes_eq_some (bytes : List Byte) (F : Frame) : frameOfBytes bytes = some F ↔ F.toList = bytes := by
  refine ⟨fun h => ?_, fun h => h ▸ frameOfBytes_toList F⟩
  unfold frameOfBytes at h
  split at h
  · cases h; rfl
  · cases h

theorem frameOfBytes_eq_none (bytes : List Byte) : frameOfBytes bytes = none ↔ bytes.length ≠ 12 := by
  constructor
  · intro h hl
    obtain ⟨F, rfl⟩ := exists_frame_of_length bytes hl
    simp [frameOfBytes_toList] at h
  · intro h
    cases hf : frameOfBytes bytes with
    | none => rfl
    | some F =>
      rw [frameOfBytes_eq_some] at hf
      exact absurd (by simp [← hf]) h

theorem inWindow_iff (d : I32) (nominal : Int) :
    inWindow d nominal = true ↔ nominal - 15 ≤ d.toInt ∧ d.toInt ≤ nominal + 15 := by
  simp [inWindow, Config.tolUs]

theorem matchesBit0_iff (p : Pair) : matchesBit0 p = true ↔
    (90 ≤ p.mark.toInt ∧ p.mark.toInt ≤ 120) ∧ (89 ≤ p.space.toInt ∧ p.space.toInt ≤ 119) := by
  simp [matchesBit0, inWindow_iff, Config.markUs, Config.spaceUs]

theorem matchesBit1_iff (p : Pair) : matchesBit1 p = true ↔
    (90 ≤ p.space.toInt ∧ p.space.toInt ≤ 120) ∧ (89 ≤ p.mark.toInt ∧ p.mark.toInt ≤ 119) := by
  simp [matchesBit1, inWindow_iff, Config.markUs, Config.spaceUs]

theorem classify_eq_zero_iff (p : Pair) : classify p = some false ↔ matchesBit0 p = true := by
  unfold classify; split <;> simp_all

theorem classify_eq_one_iff (p : Pair) : classify p = some true ↔ matchesBit0 p = false ∧ matchesBit1 p = true := by
  unfold classify; split <;> simp_all

theorem classify_eq_none_iff (p : Pair) : classify p = none ↔ matchesBit0 p = false ∧ matchesBit1 p = false := by
  unfold classify; split <;> simp_all

end Sys2Proof.Machine
end

