-- ==== Sys2Proof/Laws/State.lean ====
section
/-! SUPPORT. One lemma for each field of the state and each operation that updates it, true by unfolding, so that no later
proof unfolds a record update. -/

namespace Sys2Proof.Machine

open Sys2Proof

variable (s : State)

/-! ### respond -/

@[simp] theorem State.respond_req (r : Response) : (s.respond r).req = s.req := rfl
@[simp] theorem State.respond_rsp (r : Response) : (s.respond r).rsp = some r := rfl
@[simp] theorem State.respond_checksumEngine (r : Response) : (s.respond r).checksumEngine = s.checksumEngine := rfl
@[simp] theorem State.respond_modulator (r : Response) : (s.respond r).modulator = s.modulator := rfl
@[simp] theorem State.respond_demodulator (r : Response) : (s.respond r).demodulator = s.demodulator := rfl
@[simp] theorem State.respond_history (r : Response) : (s.respond r).history = s.history := rfl
@[simp] theorem State.respond_sinkLog (r : Response) : (s.respond r).sinkLog = s.sinkLog := rfl
@[simp] theorem State.respond_inputs (r : Response) : (s.respond r).inputs = s.inputs := rfl
@[simp] theorem State.respond_freeIndex (r : Response) : (s.respond r).freeIndex = s.freeIndex := rfl

/-! ### raise -/

@[simp] theorem State.raise_req (e : DecodeError) : (s.raise e).req = s.req := rfl
@[simp] theorem State.raise_rsp (e : DecodeError) : (s.raise e).rsp = some e.response := rfl
@[simp] theorem State.raise_checksumEngine (e : DecodeError) : (s.raise e).checksumEngine = s.checksumEngine := rfl
@[simp] theorem State.raise_modulator (e : DecodeError) : (s.raise e).modulator = s.modulator := rfl
@[simp] theorem State.raise_demodulator (e : DecodeError) : (s.raise e).demodulator = s.demodulator := rfl
@[simp] theorem State.raise_history (e : DecodeError) : (s.raise e).history = s.history := rfl
@[simp] theorem State.raise_sinkLog (e : DecodeError) : (s.raise e).sinkLog = s.sinkLog := rfl
@[simp] theorem State.raise_inputs (e : DecodeError) : (s.raise e).inputs = s.inputs := rfl
@[simp] theorem State.raise_freeIndex (e : DecodeError) : (s.raise e).freeIndex = s.freeIndex := rfl

/-! ### writeRequest -/

@[simp] theorem State.writeRequest_req (r : Request) : (s.writeRequest r).req = some r := rfl
@[simp] theorem State.writeRequest_rsp (r : Request) : (s.writeRequest r).rsp = none := rfl
@[simp] theorem State.writeRequest_checksumEngine (r : Request) : (s.writeRequest r).checksumEngine = s.checksumEngine := rfl
@[simp] theorem State.writeRequest_modulator (r : Request) : (s.writeRequest r).modulator = s.modulator := rfl
@[simp] theorem State.writeRequest_demodulator (r : Request) : (s.writeRequest r).demodulator = s.demodulator := rfl
@[simp] theorem State.writeRequest_history (r : Request) : (s.writeRequest r).history = s.history := rfl
@[simp] theorem State.writeRequest_sinkLog (r : Request) : (s.writeRequest r).sinkLog = s.sinkLog := rfl
@[simp] theorem State.writeRequest_inputs (r : Request) : (s.writeRequest r).inputs = s.inputs := rfl
@[simp] theorem State.writeRequest_freeIndex (r : Request) : (s.writeRequest r).freeIndex = s.freeIndex := rfl

/-! ### sink -/

@[simp] theorem State.sink_req (p : PulseSeq) (n : Nat) : (s.sink p n).req = s.req := rfl
@[simp] theorem State.sink_rsp (p : PulseSeq) (n : Nat) : (s.sink p n).rsp = s.rsp := rfl
@[simp] theorem State.sink_checksumEngine (p : PulseSeq) (n : Nat) : (s.sink p n).checksumEngine = s.checksumEngine := rfl
@[simp] theorem State.sink_modulator (p : PulseSeq) (n : Nat) : (s.sink p n).modulator = s.modulator := rfl
@[simp] theorem State.sink_demodulator (p : PulseSeq) (n : Nat) : (s.sink p n).demodulator = s.demodulator := rfl
@[simp] theorem State.sink_history (p : PulseSeq) (n : Nat) : (s.sink p n).history = s.history := rfl
@[simp] theorem State.sink_sinkLog (p : PulseSeq) (n : Nat) : (s.sink p n).sinkLog = appendRun p n s.sinkLog := rfl
@[simp] theorem State.sink_inputs (p : PulseSeq) (n : Nat) : (s.sink p n).inputs = s.inputs := rfl
@[simp] theorem State.sink_freeIndex (p : PulseSeq) (n : Nat) : (s.sink p n).freeIndex = s.freeIndex := rfl

/-! ### refuse -/

@[simp] theorem State.refuse_req : s.refuse.req = s.req := rfl
@[simp] theorem State.refuse_rsp : s.refuse.rsp = some refusedResponse := rfl
@[simp] theorem State.refuse_checksumEngine : s.refuse.checksumEngine = s.checksumEngine := rfl
@[simp] theorem State.refuse_modulator : s.refuse.modulator = s.modulator := rfl
@[simp] theorem State.refuse_demodulator : s.refuse.demodulator = s.demodulator := rfl
@[simp] theorem State.refuse_history : s.refuse.history = s.history := rfl
@[simp] theorem State.refuse_sinkLog : s.refuse.sinkLog = s.sinkLog := rfl
@[simp] theorem State.refuse_inputs : s.refuse.inputs = s.inputs := rfl
@[simp] theorem State.refuse_freeIndex : s.refuse.freeIndex = s.freeIndex := rfl

/-! ### takeRequest -/

@[simp] theorem State.takeRequest_req : s.takeRequest.req = none := rfl
@[simp] theorem State.takeRequest_rsp : s.takeRequest.rsp = none := rfl
@[simp] theorem State.takeRequest_checksumEngine : s.takeRequest.checksumEngine = s.checksumEngine := rfl
@[simp] theorem State.takeRequest_modulator : s.takeRequest.modulator = s.modulator := rfl
@[simp] theorem State.takeRequest_demodulator : s.takeRequest.demodulator = s.demodulator := rfl
@[simp] theorem State.takeRequest_history : s.takeRequest.history = s.history := rfl
@[simp] theorem State.takeRequest_sinkLog : s.takeRequest.sinkLog = s.sinkLog := rfl
@[simp] theorem State.takeRequest_inputs : s.takeRequest.inputs = s.inputs := rfl
@[simp] theorem State.takeRequest_freeIndex : s.takeRequest.freeIndex = s.freeIndex := rfl

/-! ### resetCore -/

@[simp] theorem State.resetCore_req : s.resetCore.req = none := rfl
@[simp] theorem State.resetCore_rsp : s.resetCore.rsp = none := rfl
@[simp] theorem State.resetCore_checksumEngine : s.resetCore.checksumEngine = ChecksumEngine.start := rfl
@[simp] theorem State.resetCore_modulator : s.resetCore.modulator = Modulator.start := rfl
@[simp] theorem State.resetCore_demodulator : s.resetCore.demodulator = s.demodulator.begin := rfl
@[simp] theorem State.resetCore_history : s.resetCore.history = s.history := rfl
@[simp] theorem State.resetCore_sinkLog : s.resetCore.sinkLog = s.sinkLog := rfl
@[simp] theorem State.resetCore_inputs : s.resetCore.inputs = s.inputs := rfl
@[simp] theorem State.resetCore_freeIndex : s.resetCore.freeIndex = s.freeIndex := rfl

/-! ### runChecksum -/

@[simp] theorem State.runChecksum_result (bytes : List Byte) : (s.runChecksum bytes).1 = checksum bytes := rfl
@[simp] theorem State.runChecksum_req (bytes : List Byte) : (s.runChecksum bytes).2.req = s.req := rfl
@[simp] theorem State.runChecksum_rsp (bytes : List Byte) : (s.runChecksum bytes).2.rsp = s.rsp := rfl
@[simp] theorem State.runChecksum_checksumEngine (bytes : List Byte) : (s.runChecksum bytes).2.checksumEngine = ChecksumEngine.addAll bytes := rfl
@[simp] theorem State.runChecksum_modulator (bytes : List Byte) : (s.runChecksum bytes).2.modulator = s.modulator := rfl
@[simp] theorem State.runChecksum_demodulator (bytes : List Byte) : (s.runChecksum bytes).2.demodulator = s.demodulator := rfl
@[simp] theorem State.runChecksum_history (bytes : List Byte) : (s.runChecksum bytes).2.history = s.history := rfl
@[simp] theorem State.runChecksum_sinkLog (bytes : List Byte) : (s.runChecksum bytes).2.sinkLog = s.sinkLog := rfl
@[simp] theorem State.runChecksum_inputs (bytes : List Byte) : (s.runChecksum bytes).2.inputs = s.inputs := rfl
@[simp] theorem State.runChecksum_freeIndex (bytes : List Byte) : (s.runChecksum bytes).2.freeIndex = s.freeIndex := rfl

/-! ### runFrameBuilder -/

@[simp] theorem State.runFrameBuilder_result (a : BitVec 16) (c m : Byte) : (s.runFrameBuilder a c m).1 = builtFrame a c m := rfl
@[simp] theorem State.runFrameBuilder_req (a : BitVec 16) (c m : Byte) : (s.runFrameBuilder a c m).2.req = s.req := rfl
@[simp] theorem State.runFrameBuilder_rsp (a : BitVec 16) (c m : Byte) : (s.runFrameBuilder a c m).2.rsp = s.rsp := rfl
@[simp] theorem State.runFrameBuilder_checksumEngine (a : BitVec 16) (c m : Byte) : (s.runFrameBuilder a c m).2.checksumEngine = ChecksumEngine.addAll (frameBody a c m) := rfl
@[simp] theorem State.runFrameBuilder_modulator (a : BitVec 16) (c m : Byte) : (s.runFrameBuilder a c m).2.modulator = s.modulator := rfl
@[simp] theorem State.runFrameBuilder_demodulator (a : BitVec 16) (c m : Byte) : (s.runFrameBuilder a c m).2.demodulator = s.demodulator := rfl
@[simp] theorem State.runFrameBuilder_history (a : BitVec 16) (c m : Byte) : (s.runFrameBuilder a c m).2.history = s.history := rfl
@[simp] theorem State.runFrameBuilder_sinkLog (a : BitVec 16) (c m : Byte) : (s.runFrameBuilder a c m).2.sinkLog = s.sinkLog := rfl
@[simp] theorem State.runFrameBuilder_inputs (a : BitVec 16) (c m : Byte) : (s.runFrameBuilder a c m).2.inputs = s.inputs := rfl
@[simp] theorem State.runFrameBuilder_freeIndex (a : BitVec 16) (c m : Byte) : (s.runFrameBuilder a c m).2.freeIndex = s.freeIndex := rfl

/-! ### runModulator -/

@[simp] theorem State.runModulator_result (F : Frame) : (s.runModulator F).1 = modulated F := rfl
@[simp] theorem State.runModulator_req (F : Frame) : (s.runModulator F).2.req = s.req := rfl
@[simp] theorem State.runModulator_rsp (F : Frame) : (s.runModulator F).2.rsp = s.rsp := rfl
@[simp] theorem State.runModulator_checksumEngine (F : Frame) : (s.runModulator F).2.checksumEngine = s.checksumEngine := rfl
@[simp] theorem State.runModulator_modulator (F : Frame) : (s.runModulator F).2.modulator = Modulator.run F := rfl
@[simp] theorem State.runModulator_demodulator (F : Frame) : (s.runModulator F).2.demodulator = s.demodulator := rfl
@[simp] theorem State.runModulator_history (F : Frame) : (s.runModulator F).2.history = s.history := rfl
@[simp] theorem State.runModulator_sinkLog (F : Frame) : (s.runModulator F).2.sinkLog = s.sinkLog := rfl
@[simp] theorem State.runModulator_inputs (F : Frame) : (s.runModulator F).2.inputs = s.inputs := rfl
@[simp] theorem State.runModulator_freeIndex (F : Frame) : (s.runModulator F).2.freeIndex = s.freeIndex := rfl

end Sys2Proof.Machine
end

