-- ==== Sys2Proof/Laws/Demodulator.lean ====
section
/-! SUPPORT. What the demodulator computes (44_pulse_demodulator.md R160, R168): its loop, said once, and the three ways
it ends. -/

namespace Sys2Proof.Machine

open Sys2Proof

/-- The bit pair `n` of a request stands for, if there is one and it classifies. -/
def pairBit (pairs : List Pair) (n : Nat) : Option Bool := pairs[n]?.bind classify

/-- The buffer holds the bits of the pairs before the cursor. -/
def Demodulator.holds (pairs : List Pair) (d : Demodulator) : Prop :=
  ∀ n < d.i, pairBit pairs n = some (frameBit d.buffer n)

/-- Why the extract phase ends with the cursor where it is. -/
def Demodulator.ended (pairs : List Pair) (i : Nat) : Option DecodeError → Prop
  | none => i = 96
  | some .truncated => i = pairs.length ∧ i < 96
  | some (.unexpectedTiming j) => j = i ∧ i < 96 ∧ i < pairs.length ∧ pairBit pairs i = none
  | some (.checksumMismatch _) => False

/-- Everything the loop of R160 can do. -/
theorem extract_spec (pairs : List Pair) (k : Nat) (d : Demodulator) (hk : k + d.i = 96)
    (hd : Demodulator.holds pairs d) :
    let r := Demodulator.extract pairs k d
    r.1.phase = d.phase ∧ Demodulator.holds pairs r.1 ∧ r.1.i ≤ 96 ∧ Demodulator.ended pairs r.1.i r.2 := by
  induction k generalizing d with
  | zero => exact ⟨rfl, hd, by simp [Demodulator.extract]; omega, by simp [Demodulator.extract, Demodulator.ended]; omega⟩
  | succ k ih =>
    simp only [Demodulator.extract]
    split
    · rename_i hn
      have hlen : pairs.length ≤ d.i := by simpa using hn
      have hle : d.i ≤ pairs.length := by
        by_contra hlt
        have := hd pairs.length (by omega)
        simp [pairBit] at this
      exact ⟨rfl, hd, by simp; omega, by simp [Demodulator.ended]; omega⟩
    · rename_i p hp
      have hlt : d.i < pairs.length := by
        by_contra h
        simp [List.getElem?_eq_none (Nat.le_of_not_lt h)] at hp
      split
      · rename_i hc
        exact ⟨rfl, hd, by simp; omega, rfl, by simp; omega, hlt, by simp [pairBit, hp, hc]⟩
      · rename_i b hc
        refine ih _ (by simp; omega) fun n hn => ?_
        simp only at hn ⊢
        rw [frameBit_setFrameBit _ _ _ _ (by omega)]
        split
        · rename_i h; subst h; simp [pairBit, hp, hc]
        · exact hd n (by omega)

theorem Demodulator.run_spec (d : Demodulator) (pairs : List Pair) :
    let r := d.run pairs
    r.1.phase = .extract ∧ Demodulator.holds pairs r.1 ∧ r.1.i ≤ 96 ∧ Demodulator.ended pairs r.1.i r.2 :=
  extract_spec pairs 96 d.begin rfl fun n hn => absurd hn (Nat.not_lt_zero n)

/-- What DEMODULATE decodes from the pairs of a request alone (R20, R160). -/
def demodulated (pairs : List Pair) : Except DecodeError Frame := (State.reset.runDemodulator pairs).1

/-- The three ways the extract phase ends exclude one another, and each fixes its outcome. -/
theorem ended_unique {pairs : List Pair} {d d' : Demodulator} {e e' : Option DecodeError}
    (h : Demodulator.holds pairs d) (h' : Demodulator.holds pairs d')
    (hi : Demodulator.ended pairs d.i e) (hi' : Demodulator.ended pairs d'.i e') :
    e = e' ∧ d.i = d'.i ∧ (e = none → d.buffer = d'.buffer) := by
  have key : ∀ {a b : Demodulator} {x y : Option DecodeError}, Demodulator.holds pairs a → Demodulator.holds pairs b →
      Demodulator.ended pairs a.i x → Demodulator.ended pairs b.i y → ¬ a.i < b.i := by
    intro a b x y ha hb hx hy hlt
    have hbit := hb _ hlt
    have hn : a.i < pairs.length := by
      by_contra h
      simp [pairBit, List.getElem?_eq_none (Nat.le_of_not_lt h)] at hbit
    match x, hx with
    | none, hx =>
      simp only [Demodulator.ended] at hx
      match y, hy with
      | none, hy => simp only [Demodulator.ended] at hy; omega
      | some .truncated, hy => simp only [Demodulator.ended] at hy; omega
      | some (.unexpectedTiming _), hy => simp only [Demodulator.ended] at hy; omega
    | some .truncated, hx => simp only [Demodulator.ended] at hx; omega
    | some (.unexpectedTiming _), hx => simp only [Demodulator.ended] at hx; rw [hx.2.2.2] at hbit; cases hbit
  have hii : d.i = d'.i := by have := key h h' hi hi'; have := key h' h hi' hi; omega
  have he : e = e' := by
    match e, hi, e', hi' with
    | none, _, none, _ => rfl
    | none, hx, some .truncated, hy => simp only [Demodulator.ended] at hx hy; omega
    | none, hx, some (.unexpectedTiming _), hy => simp only [Demodulator.ended] at hx hy; omega
    | some .truncated, hx, none, hy => simp only [Demodulator.ended] at hx hy; omega
    | some .truncated, _, some .truncated, _ => rfl
    | some .truncated, hx, some (.unexpectedTiming _), hy => simp only [Demodulator.ended] at hx hy; omega
    | some (.unexpectedTiming _), hx, none, hy => simp only [Demodulator.ended] at hx hy; omega
    | some (.unexpectedTiming _), hx, some .truncated, hy => simp only [Demodulator.ended] at hx hy; omega
    | some (.unexpectedTiming _), hx, some (.unexpectedTiming _), hy =>
      simp only [Demodulator.ended] at hx hy; rw [hx.1, hy.1, hii]
  refine ⟨he, hii, ?_⟩
  rintro rfl
  refine frame_ext_bits fun n hn => ?_
  simp only [Demodulator.ended] at hi
  have a := h n (by omega)
  rw [h' n (by omega)] at a
  exact (Option.some.inj a).symm

/-- The demodulator's outcome in terms of where the extract phase ended. -/
theorem runDemodulator_eq (s : State) (pairs : List Pair) :
    (s.runDemodulator pairs).1 =
      match (s.demodulator.run pairs).2 with
      | some e => .error e
      | none =>
        if checksum (frameSlice (s.demodulator.run pairs).1.buffer 4 10) = (s.demodulator.run pairs).1.buffer[11] then
          .ok (s.demodulator.run pairs).1.buffer
        else .error (.checksumMismatch (s.demodulator.run pairs).1.buffer) := by
  unfold State.runDemodulator
  generalize s.demodulator.run pairs = r
  obtain ⟨d, _ | e⟩ := r
  · simp only [State.verifyBuffer, State.runChecksum_result]
    by_cases hc : checksum (frameSlice d.buffer 4 10) = d.buffer[11] <;> simp [hc]
  · rfl

/-- The outcome of a decode depends on the pairs alone: neither the starting buffer nor anything else (R20, R28). -/
theorem runDemodulator_result (s : State) (pairs : List Pair) : (s.runDemodulator pairs).1 = demodulated pairs := by
  obtain ⟨-, h, -, hi⟩ := Demodulator.run_spec s.demodulator pairs
  obtain ⟨-, h', -, hi'⟩ := Demodulator.run_spec State.reset.demodulator pairs
  obtain ⟨he, -, hb⟩ := ended_unique h h' hi hi'
  rw [demodulated, runDemodulator_eq, runDemodulator_eq, ← he]
  split
  · rfl
  · rename_i hn; rw [hb hn]

/-- What the demodulator leaves unchanged. -/
theorem runDemodulator_frame (s : State) (pairs : List Pair) :
    let t := (s.runDemodulator pairs).2
    t.req = s.req ∧ t.rsp = s.rsp ∧ t.modulator = s.modulator ∧ t.history = s.history ∧ t.sinkLog = s.sinkLog ∧
      t.inputs = s.inputs ∧ t.freeIndex = s.freeIndex ∧ t.demodulator.i ≤ 96 ∧
      (t.demodulator.phase = .done → t.demodulator.i = 96 ∧ checksumHolds t.demodulator.buffer) ∧
      (t.checksumEngine = s.checksumEngine ∨
        ∃ bytes, bytes.length = 7 ∧ t.checksumEngine = ChecksumEngine.addAll bytes) := by
  obtain ⟨hp, -, hi, he⟩ := Demodulator.run_spec s.demodulator pairs
  unfold State.runDemodulator
  revert hp hi he
  generalize s.demodulator.run pairs = r
  obtain ⟨d, _ | e⟩ := r
  · intro _ hi he
    simp only [Demodulator.ended] at he
    have hl : (frameSlice d.buffer 4 10).length = 7 := by simp [frameSlice_body]
    simp only [State.verifyBuffer, State.runChecksum_result]
    by_cases hc : checksum (frameSlice d.buffer 4 10) = d.buffer[11]
    · simp only [hc, ↓reduceIte]
      exact ⟨rfl, rfl, rfl, rfl, rfl, rfl, rfl, hi, fun _ => ⟨he, hc⟩, .inr ⟨_, hl, rfl⟩⟩
    · simp only [hc, ↓reduceIte]
      exact ⟨rfl, rfl, rfl, rfl, rfl, rfl, rfl, hi, fun h => by simp at h, .inr ⟨_, hl, rfl⟩⟩
  · intro hp hi _
    have hn : ¬ d.phase = .done := by rw [show d.phase = .extract from hp]; decide
    exact ⟨rfl, rfl, rfl, rfl, rfl, rfl, rfl, hi, fun h => absurd h hn, .inl rfl⟩

/-- Everything DEMODULATE can answer for a list of pairs (R168). -/
theorem demodulated_cases (pairs : List Pair) :
    (∃ i, i < 96 ∧ i < pairs.length ∧ (∀ j < i, (pairBit pairs j).isSome) ∧ pairBit pairs i = none ∧
      demodulated pairs = .error (.unexpectedTiming i)) ∨
    (pairs.length < 96 ∧ (∀ j < pairs.length, (pairBit pairs j).isSome) ∧ demodulated pairs = .error .truncated) ∨
    (96 ≤ pairs.length ∧ ∃ F : Frame, (∀ n < 96, pairBit pairs n = some (frameBit F n)) ∧
      demodulated pairs = if checksum (frameSlice F 4 10) = F[11] then .ok F else .error (.checksumMismatch F)) := by
  obtain ⟨-, h, hle, hi⟩ := Demodulator.run_spec State.reset.demodulator pairs
  rw [demodulated, runDemodulator_eq]
  revert h hle hi
  generalize State.reset.demodulator.run pairs = r
  obtain ⟨d, e⟩ := r
  intro h hle hi
  have hs : ∀ j < d.i, (pairBit pairs j).isSome := fun j hj => by rw [h j hj]; rfl
  match e, hi with
  | none, hi =>
    simp only [Demodulator.ended] at hi
    refine .inr (.inr ⟨?_, d.buffer, fun n hn => h n (by simp only; omega), rfl⟩)
    by_contra hlt
    have := h pairs.length (by simp only; omega)
    simp [pairBit] at this
  | some .truncated, hi =>
    simp only [Demodulator.ended] at hi
    exact .inr (.inl ⟨by omega, fun j hj => hs j (by omega), rfl⟩)
  | some (.unexpectedTiming i), hi =>
    simp only [Demodulator.ended] at hi
    obtain ⟨rfl, h1, h2, h3⟩ := hi
    exact .inl ⟨_, h1, h2, hs, h3, rfl⟩

/-- Pairs that write the bits of a frame decode to it (R160, R166). -/
theorem demodulated_of_bits (pairs : List Pair) (F : Frame) (h : ∀ n < 96, pairBit pairs n = some (frameBit F n)) :
    demodulated pairs = if checksum (frameSlice F 4 10) = F[11] then .ok F else .error (.checksumMismatch F) := by
  rcases demodulated_cases pairs with ⟨i, hi, -, -, hn, -⟩ | ⟨hl, -, -⟩ | ⟨-, G, hG, e⟩
  · rw [h i hi] at hn; cases hn
  · have := h pairs.length hl
    simp [pairBit] at this
  · have : G = F := frame_ext_bits fun n hn => by
      have := hG n hn
      rw [h n hn] at this
      exact (Option.some.inj this).symm
    rw [e, this]

end Sys2Proof.Machine
end

