-- ==== Sys2Proof/Laws/Encoding.lean ====
section
/-! SUPPORT. The operand word taken apart after it is put together (30_encoding.md R65), the frame layout in its value
form (R61), and which bits the pair lists of the spec write. -/

namespace Sys2Proof

@[simp] theorem opwAddress_packOpw (a : BitVec 16) (c m : Byte) : opwAddress (packOpw a c m) = a := by
  refine BitVec.eq_of_getLsbD_eq fun i hi => ?_
  simp only [opwAddress, packOpw, BitVec.getLsbD_extractLsb', BitVec.getLsbD_append]
  interval_cases i <;> simp

@[simp] theorem opwCommand_packOpw (a : BitVec 16) (c m : Byte) : opwCommand (packOpw a c m) = c := by
  refine BitVec.eq_of_getLsbD_eq fun i hi => ?_
  simp only [opwCommand, packOpw, BitVec.getLsbD_extractLsb', BitVec.getLsbD_append]
  interval_cases i <;> simp

@[simp] theorem opwMode_packOpw (a : BitVec 16) (c m : Byte) : opwMode (packOpw a c m) = m := by
  refine BitVec.eq_of_getLsbD_eq fun i hi => ?_
  simp only [opwMode, packOpw, BitVec.getLsbD_extractLsb', BitVec.getLsbD_append]
  interval_cases i <;> simp

end Sys2Proof

namespace Sys2Proof.Machine

open Sys2Proof

/-- The fields of an assembled frame in its value form (R61). -/
theorem frameValue_assembleFrame (a : BitVec 16) (c m k : Byte) :
    frameValue (assembleFrame a c m k) = 0xAAAAAAAA#32 ++ 0x2DD4#16 ++ a ++ 0x00#8 ++ c ++ m ++ k := by
  refine BitVec.eq_of_getLsbD_eq fun i hi => ?_
  simp only [frameValue, assembleFrame, Config.syncByte, Config.preambleHigh, Config.preambleLow, Config.reservedByte,
    BitVec.getLsbD_append]
  interval_cases i <;> simp

/-- The checksum byte of a built frame is the checksum of its body (R100, R102). -/
theorem checksum_builtFrame (a : BitVec 16) (c m : Byte) :
    checksum (frameSlice (builtFrame a c m) 4 10) = (builtFrame a c m)[11] := by
  rw [frameSlice_builtFrame]; rfl

theorem frameSlice_checked (F : Frame) : frameSlice F 4 11 = frameSlice F 4 10 ++ [F[11]] := by
  obtain ⟨⟨l⟩, h⟩ := F
  match l, h with
  | [_, _, _, _, _, _, _, _, _, _, _, _], _ => rfl

end Sys2Proof.Machine
end

