-- ==== Sys2Proof/Laws/Modulator.lean ====
section
/-! SUPPORT. What the modulator computes (43_pulse_modulator.md R140 to R143): its loop, said once as an invariant, and
what follows for the pulse sequence. -/

namespace Sys2Proof.Machine

open Sys2Proof

/-- The entry of a run of `r` bits `b`. -/
def runEntry (b : Bool) (r : Nat) : I32 := BitVec.ofInt 32 (r * bitPulse b)

/-- The first `k` bits of a frame in scan order (R42). -/
def scanBits (F : Frame) (k : Nat) : List Bool := (List.range k).map (frameBit F)

/-- The number of places among the first `k + 1` bits where a bit differs from the one before. -/
def bitChanges (F : Frame) (k : Nat) : Nat := (List.range k).countP fun j => frameBit F (j + 1) != frameBit F j

theorem runEntry_toInt (b : Bool) (r : Nat) (h : r ≤ 96) : (runEntry b r).toInt = r * bitPulse b := by
  unfold runEntry
  rw [BitVec.toInt_ofInt]
  cases b <;> simp [bitPulse, Config.markUs, Config.spaceUs, Int.bmod] <;> omega

theorem runEntry_sign (b : Bool) (r : Nat) (h : r ≤ 96) (h1 : 1 ≤ r) :
    (runEntry b r).toInt.sign = if b then 1 else -1 := by
  rw [runEntry_toInt b r h]
  cases b
  · simp only [bitPulse, Config.spaceUs, Bool.false_eq_true, ↓reduceIte]
    exact Int.sign_eq_neg_one_of_neg (by omega)
  · simp only [bitPulse, Config.markUs, ↓reduceIte]
    exact Int.sign_eq_one_of_pos (by omega)

theorem entryBits_runEntry (b : Bool) (r : Nat) (h : r ≤ 96) (h1 : 1 ≤ r) :
    entryBits (runEntry b r) = List.replicate r b := by
  unfold entryBits
  rw [runEntry_toInt b r h]
  cases b
  · have : ¬ (0 : Int) < r * bitPulse false := by simp only [bitPulse, Config.spaceUs, Bool.false_eq_true, ↓reduceIte]; omega
    rw [if_neg this]
    congr
    simp only [bitPulse, Config.spaceUs, Bool.false_eq_true, ↓reduceIte]
    omega
  · have : (0 : Int) < r * bitPulse true := by simp only [bitPulse, Config.markUs, ↓reduceIte]; omega
    rw [if_pos this]
    congr
    simp only [bitPulse, Config.markUs, ↓reduceIte]
    omega

@[simp] theorem expandRuns_append (p q : PulseSeq) : expandRuns (p ++ q) = expandRuns p ++ expandRuns q := by
  simp [expandRuns]

@[simp] theorem expandRuns_singleton (e : I32) : expandRuns [e] = entryBits e := by simp [expandRuns]

theorem alternates_snoc_congr (p : PulseSeq) {a b : I32} (h : a.toInt.sign = b.toInt.sign) :
    alternates (p ++ [a]) = alternates (p ++ [b]) := by
  induction p with
  | nil => rfl
  | cons x rest ih =>
    cases rest with
    | nil => simp [alternates, h]
    | cons y rest => simp only [List.cons_append, alternates] at ih ⊢; rw [ih]

theorem alternates_snoc_snoc (p : PulseSeq) {a b : I32} (hp : alternates (p ++ [a]) = true)
    (h : a.toInt.sign ≠ b.toInt.sign) : alternates (p ++ [a] ++ [b]) = true := by
  induction p with
  | nil => simpa [alternates] using h
  | cons x rest ih =>
    cases rest with
    | nil => simp [alternates] at hp ⊢; exact ⟨hp, h⟩
    | cons y rest =>
      simp only [List.cons_append, alternates, Bool.and_eq_true] at hp ⊢
      exact ⟨hp.1, ih hp.2⟩

theorem Modulator.steps_succ (F : Frame) (k : Nat) (m : Modulator) :
    Modulator.steps F (k + 1) m = (Modulator.steps F k m).step F := by
  induction k generalizing m with
  | zero => rfl
  | succ k ih => rw [Modulator.steps, ih, ← Modulator.steps]

/-- What the local state says after the first `k + 1` turns of the loop: the accumulator holds the last run of bits,
the output the runs before it. -/
structure Modulator.Tracks (F : Frame) (k : Nat) (m : Modulator) : Prop where
  cursor   : m.n = k + 1
  run      : ∃ r, 1 ≤ r ∧ r ≤ k + 1 ∧ m.acc = r * bitPulse (frameBit F k) ∧
    expandRuns m.out ++ List.replicate r (frameBit F k) = scanBits F (k + 1) ∧
    alternates (m.out ++ [runEntry (frameBit F k) r]) = true
  entries  : ∀ e ∈ m.out, ∃ b r, 1 ≤ r ∧ r ≤ 96 ∧ e = runEntry b r
  length   : m.out.length = bitChanges F k

theorem scanBits_succ (F : Frame) (k : Nat) : scanBits F (k + 1) = scanBits F k ++ [frameBit F k] := by
  simp [scanBits, List.range_succ]

theorem bitPulse_mul_sign (b : Bool) (r : Nat) (h1 : 1 ≤ r) : ((r : Int) * bitPulse b).sign = (bitPulse b).sign := by
  rw [Int.sign_mul, Int.sign_eq_one_of_pos (by omega), one_mul]

theorem bitPulse_sign_inj {a b : Bool} (h : (bitPulse a).sign = (bitPulse b).sign) : a = b := by
  revert h; cases a <;> cases b <;> decide

/-- The loop invariant of R140. -/
theorem Modulator.tracks (F : Frame) (k : Nat) (hk : k < 96) :
    Modulator.Tracks F k (Modulator.steps F (k + 1) Modulator.start) := by
  induction k with
  | zero =>
    have e : Modulator.steps F (0 + 1) Modulator.start = { acc := bitPulse (frameBit F 0), out := [], n := 1 } := by
      simp [Modulator.steps, Modulator.step, Modulator.start]
    rw [e]
    exact ⟨rfl, ⟨1, by simp, by simp, by simp, by simp [scanBits, expandRuns], rfl⟩, by simp, by simp [bitChanges]⟩
  | succ k ih =>
    obtain ⟨hc, ⟨r, h1, hr, hacc, hexp, halt⟩, hent, hlen⟩ := ih (by omega)
    rw [Modulator.steps_succ]
    generalize Modulator.steps F (k + 1) Modulator.start = m at *
    have hne : m.acc ≠ 0 := by
      rw [hacc]; cases frameBit F k <;> simp [bitPulse, Config.markUs, Config.spaceUs] <;> omega
    have hsign : m.acc.sign = (bitPulse (frameBit F k)).sign := by rw [hacc, bitPulse_mul_sign _ _ h1]
    by_cases hb : frameBit F (k + 1) = frameBit F k
    · have e : m.step F = { m with acc := m.acc + bitPulse (frameBit F k), n := m.n + 1 } := by
        simp [Modulator.step, hc, hb, hsign]
      rw [e]
      refine ⟨by simp [hc], ⟨r + 1, by omega, by omega, ?_, ?_, ?_⟩, hent, ?_⟩
      · simp only [hacc, hb]; push_cast; ring
      · rw [scanBits_succ, ← hexp, hb, List.replicate_succ']; simp
      · rw [hb, ← halt]
        refine alternates_snoc_congr _ ?_
        rw [runEntry_sign _ _ (by omega) (by omega), runEntry_sign _ _ (by omega) h1]
      · simp [hlen, bitChanges, List.range_succ, hb]
    · have hs : m.acc.sign ≠ (bitPulse (frameBit F (k + 1))).sign := by
        rw [hsign]; exact fun h => hb (bitPulse_sign_inj h).symm
      have e : m.step F =
          ⟨bitPulse (frameBit F (k + 1)), m.out ++ [runEntry (frameBit F k) r], m.n + 1⟩ := by
        unfold Modulator.step runEntry
        simp only [hc, hne, hs, or_self, ↓reduceIte, ← hacc]
      rw [e]
      refine ⟨by simp [hc], ⟨1, le_rfl, by omega, by simp, ?_, ?_⟩, ?_, ?_⟩
      · rw [scanBits_succ, ← hexp, expandRuns_append, expandRuns_singleton, entryBits_runEntry _ _ (by omega) h1]; simp
      · refine alternates_snoc_snoc _ halt ?_
        rw [runEntry_sign _ _ (by omega) h1, runEntry_sign _ _ (by omega) le_rfl]
        cases hx : frameBit F k <;> cases hy : frameBit F (k + 1) <;> simp_all
      · intro x hx
        rcases List.mem_append.1 hx with hx | hx
        · exact hent x hx
        · exact ⟨_, r, h1, by omega, by simpa using hx⟩
      · simp [hlen, bitChanges, List.range_succ, hb]

/-- Everything the modulator leaves for a frame (R140): the sequence, and the bounds of its local state. -/
theorem modulator_run (F : Frame) :
    expandRuns (modulated F) = scanBits F 96 ∧ alternates (modulated F) = true ∧
      (∀ e ∈ modulated F, ∃ b r, 1 ≤ r ∧ r ≤ 96 ∧ e = runEntry b r) ∧ (modulated F).length = 1 + bitChanges F 95 ∧
      -10080 ≤ (Modulator.run F).acc ∧ (Modulator.run F).acc ≤ 10080 ∧ (Modulator.run F).n = 96 := by
  obtain ⟨hc, ⟨r, h1, hr, hacc, hexp, halt⟩, hent, hlen⟩ := Modulator.tracks F 95 (by omega)
  have hne : (Modulator.steps F 96 Modulator.start).acc ≠ 0 := by
    rw [hacc]; cases frameBit F 95 <;> simp [bitPulse, Config.markUs, Config.spaceUs] <;> omega
  have e : Modulator.run F = { Modulator.steps F 96 Modulator.start with
      out := (Modulator.steps F 96 Modulator.start).out ++ [runEntry (frameBit F 95) r] } := by
    unfold Modulator.run Modulator.flush
    simp only [Config.frameBits, hne, ↓reduceIte, runEntry, ← hacc]
  simp only [modulated, e]
  refine ⟨?_, halt, ?_, ?_, ?_, ?_, hc⟩
  · rw [expandRuns_append, expandRuns_singleton, entryBits_runEntry _ _ (by omega) h1, hexp]
  · intro x hx
    rcases List.mem_append.1 hx with hx | hx
    · exact hent x hx
    · exact ⟨_, r, h1, by omega, by simpa using hx⟩
  · simp [hlen]; omega
  · rw [hacc]; cases frameBit F 95 <;> simp [bitPulse, Config.markUs, Config.spaceUs] <;> omega
  · rw [hacc]; cases frameBit F 95 <;> simp [bitPulse, Config.markUs, Config.spaceUs] <;> omega

theorem bitChanges_le (F : Frame) (k : Nat) : bitChanges F k ≤ k := by
  simpa [bitChanges] using List.countP_le_length (l := List.range k) (p := fun j => frameBit F (j + 1) != frameBit F j)

/-- A modulator output has the three properties of R67. -/
theorem legalPulses_modulated (F : Frame) : legalPulses (modulated F) := by
  obtain ⟨-, halt, hent, hlen, -⟩ := modulator_run F
  have := bitChanges_le F 95
  refine ⟨fun e he h0 => ?_, halt, by omega, by simp only [Config.maxPulses]; omega⟩
  obtain ⟨b, r, h1, hr, rfl⟩ := hent e he
  have := runEntry_sign b r hr h1
  rw [h0] at this
  cases b <;> simp at this

end Sys2Proof.Machine
end

