-- ==== Sys2Proof/Laws/Sink.lean ====
section
/-! SUPPORT. The sink log: what adding handoffs does to the sequence of handoffs, and that it keeps the canonical form
(notes/assumptions/4.md). -/

namespace Sys2Proof.Machine

open Sys2Proof

@[simp] theorem sinkHandoffs_nil : sinkHandoffs [] = [] := rfl

@[simp] theorem sinkHandoffs_cons (r : SinkRun) (log : List SinkRun) :
    sinkHandoffs (r :: log) = List.replicate r.count r.pulses ++ sinkHandoffs log := by
  simp [sinkHandoffs]

/-- `n` handoffs of `p` come after those of the log (R190). -/
@[simp] theorem sinkHandoffs_appendRun (p : PulseSeq) (n : Nat) (log : List SinkRun) :
    sinkHandoffs (appendRun p n log) = sinkHandoffs log ++ List.replicate n p := by
  induction log using appendRun.induct p n with
  | case1 h => simp [appendRun, h]
  | case2 h => simp [appendRun, h]
  | case3 r h => simp [appendRun, h]
  | case4 r h hp => subst hp; simp [appendRun, h, List.replicate_append_replicate]
  | case5 r h hp => simp [appendRun, h, hp]
  | case6 r q rest ih => simp [appendRun, ih]

@[simp] theorem appendRun_zero (p : PulseSeq) (log : List SinkRun) : appendRun p 0 log = log := by
  induction log using appendRun.induct p 0 <;> simp_all [appendRun]

theorem appendRun_head (p : PulseSeq) (n : Nat) (r : SinkRun) (log : List SinkRun) :
    ∃ q rest, appendRun p n (r :: log) = q :: rest ∧ q.pulses = r.pulses ∧ r.count ≤ q.count := by
  cases log with
  | nil => unfold appendRun; split_ifs <;> simp
  | cons q rest => exact ⟨r, appendRun p n (q :: rest), by simp [appendRun], rfl, le_rfl⟩

/-- Adding handoffs keeps the canonical form. -/
theorem sinkLogWf_appendRun (p : PulseSeq) (n : Nat) (log : List SinkRun) (h : sinkLogWf log = true) :
    sinkLogWf (appendRun p n log) = true := by
  induction log using appendRun.induct p n with
  | case1 hn => simp [appendRun, hn, sinkLogWf]
  | case2 hn => simp [appendRun, hn, sinkLogWf]; omega
  | case3 r hn => simpa [appendRun, hn] using h
  | case4 r hn hp => simp [appendRun, hn, hp, sinkLogWf]; omega
  | case5 r hn hp =>
    simp only [sinkLogWf, decide_eq_true_eq] at h
    simp [appendRun, hn, hp, sinkLogWf, h]; omega
  | case6 r q rest ih =>
    obtain ⟨q', rest', e, hq, _⟩ := appendRun_head p n q rest
    simp only [sinkLogWf, Bool.and_eq_true, decide_eq_true_eq, ne_eq] at h
    have ih := ih h.2
    rw [e] at ih
    simp only [appendRun, e, sinkLogWf, Bool.and_eq_true, decide_eq_true_eq, ne_eq, hq]
    exact ⟨h.1, ih⟩

theorem mem_appendRun (p : PulseSeq) (n : Nat) (log : List SinkRun) (run : SinkRun) (h : run ∈ appendRun p n log) :
    run.pulses = p ∨ ∃ r ∈ log, r.pulses = run.pulses := by
  induction log using appendRun.induct p n with
  | case1 hn => simp [appendRun, hn] at h
  | case2 hn => simp [appendRun, hn] at h; simp [h]
  | case3 r hn => simp [appendRun, hn] at h; simp [h]
  | case4 r hn hp => simp [appendRun, hn, hp] at h; simp [h, hp]
  | case5 r hn hp => simp [appendRun, hn, hp] at h; rcases h with rfl | rfl <;> simp
  | case6 r q rest ih =>
    simp only [appendRun, List.mem_cons] at h
    rcases h with rfl | h
    · exact .inr ⟨run, by simp, rfl⟩
    · rcases ih h with h | ⟨x, hx, hp⟩
      · exact .inl h
      · exact .inr ⟨x, List.mem_cons_of_mem _ hx, hp⟩

end Sys2Proof.Machine
end

