-- ==== Sys2Proof/Laws/Exec.lean ====
section
/-! SUPPORT. What each meaning answers: an equation for each operation, then what every operation does to the ports, the
sink and the rest of the state, said once. -/

namespace Sys2Proof.Machine

open Sys2Proof

theorem exec_buildFrame (a : BitVec 16) (c m : Byte) (s : State) :
    exec (.buildFrame a c m) s =
      .next ((s.runFrameBuilder a c m).2.respond { status := .ok, payload := .frame (builtFrame a c m) }) := rfl

theorem exec_checksum (bytes : List Byte) (s : State) (h : bytes.length = 7) :
    exec (.checksum bytes) s =
      .next ((s.runChecksum bytes).2.respond { status := .ok, payload := .checksum (checksum bytes) }) := by
  simp [exec, execChecksum, h]

theorem exec_checksum_refused (bytes : List Byte) (s : State) (h : bytes.length ≠ 7) :
    exec (.checksum bytes) s = .next s.refuse := by
  simp [exec, execChecksum, h]

theorem exec_verify (body : List Byte) (last : Byte) (s : State) (h : body.length = 7) :
    exec (.verify (body ++ [last])) s =
      .next ((s.runChecksum body).2.respond { status := .ok, payload := .verified (checksum body == last) }) := by
  have ht : (body ++ [last]).take 7 = body := by rw [← h]; simp
  simp [exec, execVerify, h, ht]

theorem exec_verify_refused (bytes : List Byte) (s : State) (h : bytes.length ≠ 8) :
    exec (.verify bytes) s = .next s.refuse := by
  simp [exec, execVerify, h]

theorem exec_modulate (F : Frame) (s : State) :
    exec (.modulate F.toList) s =
      .next ((s.runModulator F).2.respond
        { status := .ok, payload := .pulses (modulated F).length (modulated F) }) := by
  simp [exec, execModulate, frameOfBytes_toList]

theorem exec_modulate_refused (bytes : List Byte) (s : State) (h : bytes.length ≠ 12) :
    exec (.modulate bytes) s = .next s.refuse := by
  simp [exec, execModulate, (frameOfBytes_eq_none bytes).2 h]

theorem exec_demodulate (pairs : List Pair) (s : State) :
    exec (.demodulate pairs) s =
      .next ((s.runDemodulator pairs).2.respond (demodulateResponse (demodulated pairs))) := by
  rw [← runDemodulator_result s pairs]
  simp only [exec, execDemodulate]
  generalize s.runDemodulator pairs = r
  obtain ⟨e | F, t⟩ := r <;> rfl

theorem exec_send (a : BitVec 16) (c m : Byte) (k : BitVec 32) (s : State) :
    exec (.send a c m k) s =
      .next (((((s.runFrameBuilder a c m).2.runModulator (builtFrame a c m)).2.sink
        (modulated (builtFrame a c m)) (k.toNat + 1))).respond { status := .ok, payload := .none }) := rfl

theorem exec_onSignal (pairs : List Pair) (s : State) :
    exec (.onSignal pairs) s =
      .next ((s.runDemodulator pairs).2.respond
        (onSignalResponse (demodulateResponse (demodulated pairs)))) := by
  rw [← runDemodulator_result s pairs]
  rfl

theorem exec_reserved (s : State) : exec .reserved s = .next s.refuse := rfl

/-- The response of an operation, a function of the operation alone (R20). -/
def responseOf : Instr → Response
  | .buildFrame a c m => { status := .ok, payload := .frame (builtFrame a c m) }
  | .checksum bytes => if bytes.length = 7 then { status := .ok, payload := .checksum (checksum bytes) } else refusedResponse
  | .verify bytes =>
    if bytes.length = 8 then { status := .ok, payload := .verified (some (checksum (bytes.take 7)) == bytes[7]?) }
    else refusedResponse
  | .modulate bytes =>
    match frameOfBytes bytes with
    | some F => { status := .ok, payload := .pulses (modulated F).length (modulated F) }
    | none => refusedResponse
  | .demodulate pairs => demodulateResponse (demodulated pairs)
  | .send _ _ _ _ => { status := .ok, payload := .none }
  | .onSignal pairs => onSignalResponse (demodulateResponse (demodulated pairs))
  | .reserved => refusedResponse

/-- The handoffs of an operation to the sink: one sequence and how many times (R190). -/
def handoffOf : Instr → Option (PulseSeq × Nat)
  | .send a c m k => some (modulated (builtFrame a c m), k.toNat + 1)
  | _ => none

/-- The sink log after further handoffs. -/
def logAfter (log : List SinkRun) : Option (PulseSeq × Nat) → List SinkRun
  | some (p, n) => appendRun p n log
  | none => log

/-- What every operation does: it answers a next state with its own response on RSP, and changes nothing else but the
sink log as `handoffOf` says and the local state of the units within its bounds (R20, R45, R204). -/
theorem exec_spec (i : Instr) (s : State) :
    ∃ t, exec i s = .next t ∧ t.rsp = some (responseOf i) ∧ t.sinkLog = logAfter s.sinkLog (handoffOf i) ∧
      t.req = s.req ∧ t.history = s.history ∧ t.inputs = s.inputs ∧ t.freeIndex = s.freeIndex ∧
      (s.unitsBounded → t.unitsBounded) := by
  have hsum : ∀ bytes : List Byte, bytes.length = 7 → ∀ u : State, u.checksumEngine = ChecksumEngine.addAll bytes →
      u.modulator = s.modulator → u.demodulator = s.demodulator → s.unitsBounded → u.unitsBounded := by
    intro bytes hb u h1 h2 h3 hs
    have := addAll_sum_bounds bytes (by omega)
    obtain ⟨-, -, hs⟩ := hs
    exact ⟨by rw [h1]; exact this.1, by rw [h1]; exact this.2, by rw [h2, h3]; exact hs⟩
  have hmod : ∀ (F : Frame) (u : State), u.modulator = Modulator.run F →
      u.demodulator = s.demodulator → (0 ≤ u.checksumEngine.sum ∧ u.checksumEngine.sum ≤ 1785) → s.unitsBounded →
      u.unitsBounded := by
    intro F u h2 h3 h1 hs
    obtain ⟨-, -, -, hlen, ha, hb, hn⟩ := modulator_run F
    have := bitChanges_le F 95
    obtain ⟨-, -, -, -, -, -, hd⟩ := hs
    refine ⟨h1.1, h1.2, by rw [h2]; exact ha, by rw [h2]; exact hb, by rw [h2, hn]; exact le_rfl, ?_, by rw [h3]; exact hd⟩
    rw [h2]
    change (modulated F).length ≤ 96
    omega
  have hdem : ∀ (pairs : List Pair) (r : Response), s.unitsBounded →
      ((s.runDemodulator pairs).2.respond r).unitsBounded := by
    intro pairs r hs
    obtain ⟨-, -, hm, -, -, -, -, hi, hph, hc⟩ := runDemodulator_frame s pairs
    obtain ⟨h0, h1, h2, h3, h4, h5, -⟩ := hs
    refine ⟨?_, ?_, by simpa [hm] using h2, by simpa [hm] using h3, by simpa [hm] using h4, by simpa [hm] using h5, hi, hph⟩
    · rcases hc with hc | ⟨bytes, hb, hc⟩
      · simpa [hc] using h0
      · simp [hc]
    · rcases hc with hc | ⟨bytes, hb, hc⟩
      · simpa [hc] using h1
      · simpa [hc] using (addAll_sum_bounds bytes (by omega)).2
  cases i with
  | buildFrame a c m =>
    exact ⟨_, exec_buildFrame a c m s, rfl, rfl, rfl, rfl, rfl, rfl, hsum (frameBody a c m) rfl _ rfl rfl rfl⟩
  | checksum bytes =>
    by_cases h : bytes.length = 7
    · exact ⟨_, exec_checksum bytes s h, by simp [responseOf, h], rfl, rfl, rfl, rfl, rfl, hsum bytes h _ rfl rfl rfl⟩
    · exact ⟨_, exec_checksum_refused bytes s h, by simp [responseOf, h], rfl, rfl, rfl, rfl, rfl, id⟩
  | verify bytes =>
    by_cases h : bytes.length = 8
    · refine ⟨(s.runChecksum (bytes.take 7)).2.respond (responseOf (.verify bytes)), ?_, rfl, rfl, rfl, rfl, rfl, rfl,
        hsum (bytes.take 7) (by simp [h]) _ rfl rfl rfl⟩
      simp [exec, execVerify, responseOf, h]
    · exact ⟨_, exec_verify_refused bytes s h, by simp [responseOf, h], rfl, rfl, rfl, rfl, rfl, id⟩
  | modulate bytes =>
    by_cases h : bytes.length = 12
    · obtain ⟨F, rfl⟩ := exists_frame_of_length bytes h
      exact ⟨_, exec_modulate F s, by simp [responseOf, frameOfBytes_toList], rfl, rfl, rfl, rfl, rfl,
        fun hs => hmod F _ rfl rfl ⟨hs.1, hs.2.1⟩ hs⟩
    · exact ⟨_, exec_modulate_refused bytes s h, by simp [responseOf, (frameOfBytes_eq_none bytes).2 h], rfl, rfl, rfl,
        rfl, rfl, id⟩
  | demodulate pairs =>
    obtain ⟨h1, -, -, h4, h5, h6, h7, -⟩ := runDemodulator_frame s pairs
    exact ⟨_, exec_demodulate pairs s, rfl, h5, h1, h4, h6, h7, hdem pairs _⟩
  | send a c m k =>
    exact ⟨_, exec_send a c m k s, rfl, rfl, rfl, rfl, rfl, rfl,
      hmod (builtFrame a c m) _ rfl rfl (addAll_sum_bounds (frameBody a c m) (by simp [frameBody]))⟩
  | onSignal pairs =>
    obtain ⟨h1, -, -, h4, h5, h6, h7, -⟩ := runDemodulator_frame s pairs
    exact ⟨_, exec_onSignal pairs s, rfl, h5, h1, h4, h6, h7, hdem pairs _⟩
  | reserved => exact ⟨_, exec_reserved s, rfl, rfl, rfl, rfl, rfl, rfl, id⟩

end Sys2Proof.Machine
end

