-- ==== Sys2Proof/Laws/PerInstr.lean ====
section
/-! SUPPORT. Statements about every operation as syntax, one lemma for each constructor. -/

namespace Sys2Proof.Laws.EncodedForm

open Sys2Proof

/-- The request that encodes an operation carries its selector (R64) and, where the operation is well formed, a byte list
of the length the selector fixes (R66). -/
def Statement (i : Instr) : Prop :=
  (encode i).op = i.selector ∧
    (i.wellFormed = true → ∀ n, byteListLength i.selector = some n → (encode i).bytes.length = n)

theorem buildFrame (address : BitVec 16) (command mode : Byte) : Statement (.buildFrame address command mode) :=
  ⟨rfl, fun _ n h => by simp [byteListLength, Instr.selector] at h⟩

theorem checksum (bytes : List Byte) : Statement (.checksum bytes) :=
  ⟨rfl, fun hw n h => by simp_all [byteListLength, Instr.selector, Instr.wellFormed, encode]⟩

theorem verify (bytes : List Byte) : Statement (.verify bytes) :=
  ⟨rfl, fun hw n h => by simp_all [byteListLength, Instr.selector, Instr.wellFormed, encode]⟩

theorem modulate (bytes : List Byte) : Statement (.modulate bytes) :=
  ⟨rfl, fun hw n h => by simp_all [byteListLength, Instr.selector, Instr.wellFormed, encode]⟩

theorem demodulate (pairs : List Pair) : Statement (.demodulate pairs) :=
  ⟨rfl, fun _ n h => by simp [byteListLength, Instr.selector] at h⟩

theorem send (address : BitVec 16) (command mode : Byte) (repeatCount : BitVec 32) :
    Statement (.send address command mode repeatCount) :=
  ⟨rfl, fun _ n h => by simp [byteListLength, Instr.selector] at h⟩

theorem onSignal (pairs : List Pair) : Statement (.onSignal pairs) :=
  ⟨rfl, fun _ n h => by simp [byteListLength, Instr.selector] at h⟩

theorem reserved : Statement .reserved :=
  ⟨rfl, fun hw => by simp [Instr.wellFormed] at hw⟩

end Sys2Proof.Laws.EncodedForm
end

