-- ==== Sys2Proof/Laws/Step.lean ====
section
/-! SUPPORT. What a step does, said once. -/

namespace Sys2Proof.Machine

open Sys2Proof

/-- With a request pending, the step carries its operation out (R21, R45). -/
theorem step_of_request (s : State) (r : Request) (h : s.req = some r) :
    ∃ t, step s = .next t ∧ t.rsp = some (responseOf (decode r)) ∧ t.req = none ∧
      t.history = s.history ++ [{ request := r, response := responseOf (decode r) }] ∧
      t.sinkLog = logAfter s.sinkLog (handoffOf (decode r)) ∧ t.inputs = s.inputs ∧ t.freeIndex = s.freeIndex ∧
      (s.unitsBounded → t.unitsBounded) := by
  obtain ⟨t, e, hr, hl, hq, hh, hi, hf, hu⟩ := exec_spec (decode r) s.takeRequest
  refine ⟨t.record r, ?_, ?_⟩
  · simp [step, h, State.carryOut, e]
  · simp only [State.record, hr, hq, hh, hi, hl, hf]
    exact ⟨trivial, rfl, rfl, rfl, rfl, rfl, fun hs => hu hs⟩

/-- With no request pending, the step takes the next host input, or waits. -/
theorem step_of_no_request (s : State) (h : s.req = none) :
    (s.inputs = [] ∧ step s = .next s) ∨
      ∃ e rest, s.inputs = e :: rest ∧ step s = .next (({ s with inputs := rest } : State).deliver e) := by
  cases hi : s.inputs with
  | nil => exact .inl ⟨rfl, by simp [step, h, hi]⟩
  | cons e rest => exact .inr ⟨e, rest, rfl, by simp [step, h, hi]⟩

/-- The handoffs of an abandoned operation stay, and the core is reset (R231). -/
theorem abandon_spec (s : State) (r : Request) :
    ∃ k n, s.abandon r = ({ s with
        freeIndex := k
        sinkLog := logAfter s.sinkLog ((handoffOf (decode r)).map fun h => (h.1, n)) } : State).resetCore ∧
      ∀ h, handoffOf (decode r) = some h → n ≤ h.2 := by
  unfold State.abandon
  split <;> rename_i hd <;> rw [hd]
  · rename_i a c m rep
    refine ⟨_, abandonedHandoffs s.freeIndex rep, rfl, fun h e => ?_⟩
    simp only [handoffOf, Option.some.injEq] at e
    subst e
    simp only [abandonedHandoffs]
    have := Nat.mod_lt (Config.freeHandoffs s.freeIndex) (y := rep.toNat + 2) (by omega)
    omega
  all_goals exact ⟨s.freeIndex, 0, rfl, by simp [handoffOf]⟩

end Sys2Proof.Machine
end

