-- ==== Sys2Proof/Machine/Assembler.lean ====
section
/-! DEFINITION. The assembler syntax of 30_encoding.md R75: from the characters of one line to the operations it stands
for, the two pseudo-operations expanded. The host's notation; the core never sees it (D27). -/

namespace Sys2Proof.Machine

open Sys2Proof

/-- A token of an assembly line. -/
inductive AsmToken where
  | word (w : List Char)
  | number (v : Int)
  | comma
  | open
  | close
deriving DecidableEq, Repr

/-- The value of a hexadecimal or decimal digit. -/
def digitValue (c : Char) : Option Nat :=
  if '0' ≤ c ∧ c ≤ '9' then some (c.toNat - '0'.toNat)
  else if 'a' ≤ c ∧ c ≤ 'f' then some (c.toNat - 'a'.toNat + 10)
  else if 'A' ≤ c ∧ c ≤ 'F' then some (c.toNat - 'A'.toNat + 10)
  else none

/-- The number a digit string writes in a base. -/
def digitsValue (base : Nat) : List Char → Nat → Option Nat
  | [], acc => some acc
  | c :: rest, acc =>
    match digitValue c with
    | some d => if d < base then digitsValue base rest (acc * base + d) else none
    | none => none

/-- "Numbers are hexadecimal with `0x` or decimal" (R75). -/
def naturalOf : List Char → Option Nat
  | '0' :: 'x' :: d :: rest => digitsValue 16 (d :: rest) 0
  | d :: rest => digitsValue 10 (d :: rest) 0
  | [] => none

/-- The token of a run of characters without separators: a number, or else a word. A minus sign makes a negative
duration (95_test_vectors.md V29n). -/
def runToken (cs : List Char) : AsmToken :=
  match cs with
  | '-' :: rest =>
    match naturalOf rest with
    | some v => .number (-(v : Int))
    | none => .word cs
  | _ =>
    match naturalOf cs with
    | some v => .number v
    | none => .word cs

/-- The pending run, in reverse, as the tokens it ends. -/
def endRun (run : List Char) : List AsmToken := if run.isEmpty then [] else [runToken run.reverse]

/-- The tokens of a line. -/
def tokens : List Char → List Char → List AsmToken
  | [], run => endRun run
  | c :: rest, run =>
    if c = ' ' then endRun run ++ tokens rest []
    else if c = ',' then endRun run ++ AsmToken.comma :: tokens rest []
    else if c = '(' then endRun run ++ AsmToken.open :: tokens rest []
    else if c = ')' then endRun run ++ AsmToken.close :: tokens rest []
    else tokens rest (c :: run)

/-- Numbers separated by commas. -/
def numberList : List AsmToken → Option (List Int)
  | [.number v] => some [v]
  | .number v :: .comma :: rest => (numberList rest).map (v :: ·)
  | _ => none

/-- Pairs in parentheses separated by commas. -/
def pairList : List AsmToken → Option (List (Int × Int))
  | [.open, .number m, .comma, .number s, .close] => some [(m, s)]
  | .open :: .number m :: .comma :: .number s :: .close :: .comma :: rest => (pairList rest).map ((m, s) :: ·)
  | _ => none

/-- An unsigned operand of a width. "A value wider than its port cannot be put on the port at all" (R201). -/
def unsignedOperand (w : Nat) (v : Int) : Option (BitVec w) :=
  if 0 ≤ v ∧ v < 2 ^ w then some (BitVec.ofInt w v) else none

/-- A duration: a signed 32-bit value (R7). -/
def durationOperand (v : Int) : Option I32 :=
  if -2 ^ 31 ≤ v ∧ v < 2 ^ 31 then some (BitVec.ofInt 32 v) else none

/-- Numbers as bytes. -/
def byteOperands (vs : List Int) : Option (List Byte) := vs.mapM (unsignedOperand 8)

/-- A list operand: no tokens write the empty list. -/
def listOperand {α : Type} (read : List AsmToken → Option (List α)) (ts : List AsmToken) : Option (List α) :=
  match ts with
  | [] => some []
  | t :: rest => read (t :: rest)

/-- Number pairs as pairs of durations. -/
def pairOperands (ps : List (Int × Int)) : Option (List Pair) :=
  ps.mapM fun p => do
    let m ← durationOperand p.1
    let s ← durationOperand p.2
    return { mark := m, space := s }

/-- The operands `<address>, <command>, <mode>`. -/
def frameOperands : List Int → Option (BitVec 16 × Byte × Byte)
  | [a, c, m] => do
    let address ← unsignedOperand 16 a
    let command ← unsignedOperand 8 c
    let mode ← unsignedOperand 8 m
    return (address, command, mode)
  | _ => none

/-- The operations of a mnemonic and its operand tokens (R75). -/
def assembleTokens (mnemonic : List Char) (ts : List AsmToken) : Option (List Instr) :=
  if mnemonic = "BUILD_FRAME".toList then do
    let (a, c, m) ← frameOperands (← numberList ts)
    return [.buildFrame a c m]
  else if mnemonic = "CHECKSUM".toList then do
    return [.checksum (← byteOperands (← listOperand numberList ts))]
  else if mnemonic = "VERIFY".toList then do
    return [.verify (← byteOperands (← listOperand numberList ts))]
  else if mnemonic = "MODULATE".toList then do
    return [.modulate (← byteOperands (← listOperand numberList ts))]
  else if mnemonic = "DEMODULATE".toList then do
    return [.demodulate (← pairOperands (← listOperand pairList ts))]
  else if mnemonic = "SEND".toList then do
    match ← numberList ts with
    | [a, c, m, k] =>
      let (address, command, mode) ← frameOperands [a, c, m]
      let repeatCount ← unsignedOperand 32 k
      return [.send address command mode repeatCount]
    | _ => none
  else if mnemonic = "ON_SIGNAL".toList then do
    return [.onSignal (← pairOperands (← listOperand pairList ts))]
  else if mnemonic = "TRANSMIT_FRAME".toList then do
    let (a, c, m) ← frameOperands (← numberList ts)
    return transmitFrame a c m
  else if mnemonic = "DEMODULATE_FLAT".toList then do
    let ds ← (← listOperand numberList ts).mapM durationOperand
    return [demodulateFlat ds]
  else none

/-- The operations a line of assembly stands for, or none where it is no line of R75. -/
def assemble (line : List Char) : Option (List Instr) :=
  match tokens line [] with
  | .word w :: ts => assembleTokens w ts
  | _ => none

end Sys2Proof.Machine
end

