-- ==== Sys2Proof/Tests/Slice0.lean ====
section
/-! SUPPORT. The model's own tests: expected values from 95_test_vectors.md (V<n>, P<n>) and from the encodings of
30_encoding.md, and for each statement with hypotheses a state and operands that meet them. -/

namespace Sys2Proof.Tests

open Sys2Proof Sys2Proof.Machine

/-! ## Helpers -/

/-- The response an outcome leaves on RSP. -/
def rspOf : Host.Outcome State Fault Refusal → Option Response
  | .next s => s.rsp
  | .fault _ => none
  | .refused _ => none

/-- The runs of the sink log an outcome leaves: the length of the sequence and the count. -/
def sinkOf : Host.Outcome State Fault Refusal → List (Nat × Nat)
  | .next s => s.sinkLog.map fun r => (r.pulses.length, r.count)
  | .fault _ => []
  | .refused _ => []

/-- A request with one selector and every other field zero or empty. -/
def reqOp (op : BitVec 3) : Request := { op := op, opw := 0, repeatCount := 0, bytes := [], pairs := [] }

/-- `Z`, the pair (105, 104), `k` times (95_test_vectors.md). -/
def zeroPairs (k : Nat) : List Pair := List.replicate k { mark := 105, space := 104 }

/-- A pair of two numbers. -/
def pair (m s : Int) : Pair := { mark := BitVec.ofInt 32 m, space := BitVec.ofInt 32 s }

/-- The frame of V1. -/
def frameV1 : Frame := #v[0xAA, 0xAA, 0xAA, 0xAA, 0x2D, 0xD4, 0xF9, 0xCB, 0x00, 0x11, 0x01, 0x29]

/-- The pulses of V20. -/
def pulsesV20 : List Int :=
  [105, -104, 105, -104, 105, -104, 105, -104, 105, -104, 105, -104, 105, -104, 105, -104, 105, -104, 105, -104, 105] ++
  [-104, 105, -104, 105, -104, 105, -104, 105, -104, 105, -312, 105, -104, 210, -104, 315, -104, 105, -104, 105, -208] ++
  [525, -208, 315, -208, 105, -104, 210, -1144, 105, -312, 105, -728, 105, -208, 105, -104, 105, -208, 105]

/-! ## WellFormed: each check and a term it refuses (R66, R72) -/

theorem test_wellFormed_checksum_length :
    (Instr.checksum (List.replicate 7 0)).wellFormed = true ∧ (Instr.checksum (List.replicate 6 0)).wellFormed = false := by
  decide

theorem test_wellFormed_verify_length :
    (Instr.verify (List.replicate 8 0)).wellFormed = true ∧ (Instr.verify (List.replicate 9 0)).wellFormed = false := by
  decide

theorem test_wellFormed_modulate_length :
    (Instr.modulate (List.replicate 12 0)).wellFormed = true ∧ (Instr.modulate []).wellFormed = false := by
  decide

theorem test_wellFormed_reserved : Instr.reserved.wellFormed = false := by decide

/-! ## Decode: requests written out from R64 to R66 and the encoding columns of P1 to P4 -/

theorem test_decode_buildFrame :
    decode { reqOp 0b000 with opw := 0xF9CB1101 } = .buildFrame 0xF9CB 0x11 0x01 := by decide

theorem test_decode_checksum :
    decode { reqOp 0b001 with bytes := [0x12, 0x34] } = .checksum [0x12, 0x34] := by decide

theorem test_decode_verify :
    decode { reqOp 0b010 with bytes := [0x12, 0x34, 0x56, 0x78, 0x00, 0x9A, 0xBC, 0x96] } =
      .verify [0x12, 0x34, 0x56, 0x78, 0x00, 0x9A, 0xBC, 0x96] := by decide

theorem test_decode_modulate :
    decode { reqOp 0b011 with bytes := frameV1.toList } =
      .modulate [0xAA, 0xAA, 0xAA, 0xAA, 0x2D, 0xD4, 0xF9, 0xCB, 0x00, 0x11, 0x01, 0x29] := by decide

theorem test_decode_demodulate :
    decode { reqOp 0b100 with pairs := [pair 105 104, pair 121 104] } =
      .demodulate [pair 105 104, pair 121 104] := by decide

theorem test_decode_send :
    decode { reqOp 0b101 with opw := 0x12345678, repeatCount := 1 } = .send 0x1234 0x56 0x78 1 := by decide

theorem test_decode_onSignal :
    decode { reqOp 0b110 with pairs := zeroPairs 2 } = .onSignal (zeroPairs 2) := by decide

theorem test_decode_reserved :
    decode { op := 0b111, opw := 5, repeatCount := 5, bytes := [5], pairs := zeroPairs 1 } = .reserved := by decide

theorem test_decodeTableWord_rows :
    (List.range 8).map (decodeTableWord 8) =
      [some (.buildFrame 0 0 0), some (.checksum (List.replicate 7 0)), some (.verify (List.replicate 8 0)),
        some (.modulate (List.replicate 12 0)), some (.demodulate []), some (.send 0 0 0 0), some (.onSignal []),
        some .reserved] := by decide

theorem test_decodeTableWord_no_selector : decodeTableWord 8 8 = none ∧ decodeTableWord 8 255 = none := by decide

theorem test_encode_send : encode (.send 0x1234 0x56 0x78 1) = { reqOp 0b101 with opw := 0x12345678, repeatCount := 1 } := by
  decide

/-! ## BUILD_FRAME: V11, V13, V14, V18 -/

theorem test_buildFrame_V11_V14 :
    rspOf (exec (.buildFrame 0xF9CB 0x11 0x01) State.reset) = some { status := .ok, payload := .frame frameV1 } ∧
    (builtFrame 0x1234 0x56 0x78).toList = [0xAA, 0xAA, 0xAA, 0xAA, 0x2D, 0xD4, 0x12, 0x34, 0x00, 0x56, 0x78, 0xEB] := by
  decide +kernel

theorem test_buildFrame_V13_V18 :
    (builtFrame 0xFFFF 0xFF 0xFF).toList = [0xAA, 0xAA, 0xAA, 0xAA, 0x2D, 0xD4, 0xFF, 0xFF, 0x00, 0xFF, 0xFF, 0x03] ∧
    (builtFrame 0x0000 0xFF 0x00).toList = [0xAA, 0xAA, 0xAA, 0xAA, 0x2D, 0xD4, 0x00, 0x00, 0x00, 0xFF, 0x00, 0x00] := by
  decide +kernel

/-! ## CHECKSUM: V19a to V19e, V19l -/

theorem test_checksum_V19 :
    checksum (List.replicate 7 0x00) = 0x00 ∧ checksum (List.replicate 7 0xFF) = 0x07 ∧
    checksum [0x80, 0x80, 0, 0, 0, 0, 0] = 0x00 ∧ checksum [0x01, 0, 0, 0, 0, 0, 0] = 0xFF ∧
    checksum [0x2D, 0xD4, 0, 0, 0, 0, 0] = 0xFF := by decide +kernel

theorem test_checksum_P2 :
    rspOf (exec (.checksum [0x12, 0x34, 0x56, 0x78, 0x00, 0x9A, 0xBC]) State.reset) =
      some { status := .ok, payload := .checksum 0x96 } ∧
    rspOf (exec (.checksum (List.replicate 6 0)) State.reset) = some { status := .refused, payload := .none } := by
  decide +kernel

/-! ## VERIFY: V19f to V19k -/

theorem test_verify_true :
    rspOf (exec (.verify [0x2D, 0xD4, 0xF9, 0xCB, 0x00, 0x11, 0x01, 0x29]) State.reset) =
      some { status := .ok, payload := .verified true } ∧
    rspOf (exec (.verify [0xD4, 0x2D, 0xF9, 0xCB, 0x00, 0x11, 0x01, 0x29]) State.reset) =
      some { status := .ok, payload := .verified true } := by decide +kernel

theorem test_verify_false :
    rspOf (exec (.verify [0x2D, 0xD4, 0xF9, 0xCB, 0x00, 0x11, 0x01, 0x28]) State.reset) =
      some { status := .ok, payload := .verified false } ∧
    rspOf (exec (.verify [0xAD, 0xD4, 0xF9, 0xCB, 0x00, 0x11, 0x01, 0x29]) State.reset) =
      some { status := .ok, payload := .verified false } := by decide +kernel

/-! ## MODULATE: V20, V23, V24, V26 to V28 -/

theorem test_modulate_V20 : (modulated frameV1).map BitVec.toInt = pulsesV20 ∧ pulsesV20.length = 61 := by
  decide +kernel

theorem test_modulate_V23_V28 :
    rspOf (exec (.modulate (List.replicate 12 0x00)) State.reset) =
      some { status := .ok, payload := .pulses 1 [BitVec.ofInt 32 (-9984)] } ∧
    (modulated #v[0xFF, 0xFF, 0xFF, 0xFF, 0xFF, 0xFF, 0xFF, 0xFF, 0xFF, 0xFF, 0xFF, 0xFF]).map BitVec.toInt = [10080] ∧
    (modulated #v[0x80, 0, 0, 0, 0, 0, 0, 0, 0, 0, 0, 0]).map BitVec.toInt = [105, -9880] ∧
    (modulated #v[0, 0, 0, 0, 0, 0, 0, 0, 0, 0, 0, 0x01]).map BitVec.toInt = [-9880, 105] ∧
    (modulated #v[0x55, 0x55, 0x55, 0x55, 0x55, 0x55, 0x55, 0x55, 0x55, 0x55, 0x55, 0x55]).length = 96 := by
  decide +kernel

/-! ## Pair classification: V3 to V5, V29 -/

theorem test_classify_V29_bits :
    classify (pair 105 104) = some false ∧ classify (pair 120 104) = some false ∧ classify (pair 90 104) = some false ∧
    classify (pair 89 104) = some true ∧ classify (pair 105 89) = some false ∧ classify (pair 105 119) = some false ∧
    classify (pair 105 120) = some true ∧ classify (pair 104 105) = some false ∧ classify (pair 120 119) = some false ∧
    classify (pair 119 120) = some true ∧ classify (pair 89 120) = some true ∧ classify (pair 120 89) = some false := by
  decide

theorem test_classify_V29_none :
    classify (pair 121 104) = none ∧ classify (pair 88 104) = none ∧ classify (pair 105 88) = none ∧
    classify (pair 89 89) = none ∧ classify (pair 121 120) = none ∧ classify (pair (-105) 104) = none ∧
    classify (pair 105 (-104)) = none ∧ classify (pair 0 0) = none := by decide

/-! ## DEMODULATE: V30 to V38, V40, V41 -/

theorem test_demodulate_errors :
    rspOf (exec (.demodulate []) State.reset) = some { status := .truncated, payload := .none } ∧
    rspOf (exec (.demodulate (zeroPairs 95)) State.reset) = some { status := .truncated, payload := .none } ∧
    rspOf (exec (.demodulate (zeroPairs 50 ++ [pair 121 104])) State.reset) =
      some { status := .unexpectedTiming, payload := .index 50 } ∧
    rspOf (exec (.demodulate (pair 121 104 :: zeroPairs 40)) State.reset) =
      some { status := .unexpectedTiming, payload := .index 0 } ∧
    rspOf (exec (.demodulate (edgePairs (frameV1.set 11 0x28))) State.reset) =
      some { status := .checksumMismatch, payload := .decodedBytes (frameV1.set 11 0x28) } := by decide +kernel

theorem test_demodulate_decoded :
    rspOf (exec (.demodulate (zeroPairs 96 ++ [pair 0 0])) State.reset) =
      some { status := .ok, payload := .decoded resetBuffer 0x00 0x00 } ∧
    rspOf (exec (.demodulate (nominalPairs frameV1)) State.reset) =
      some { status := .ok, payload := .decoded resetBuffer 0x00 0x00 } ∧
    rspOf (exec (.demodulate (edgePairs frameV1)) State.reset) =
      some { status := .ok, payload := .decoded frameV1 0x11 0x01 } := by decide +kernel

/-! ## SEND: V42, V43, and the largest repeat count of R190 -/

theorem test_send_V43 :
    sinkOf (exec (.send 0xF9CB 0x11 0x01 2) State.reset) = [(61, 3)] ∧
    rspOf (exec (.send 0xF9CB 0x11 0x01 0) State.reset) = some { status := .ok, payload := .none } := by decide +kernel

theorem test_send_largest_repeat :
    sinkOf (exec (.send 0x1234 0x56 0x78 0xFFFFFFFF) State.reset) = [(63, 4294967296)] := by decide +kernel

/-! ## ON_SIGNAL: V44 to V47 -/

theorem test_onSignal_some :
    rspOf (exec (.onSignal (edgePairs frameV1)) State.reset) = some { status := .ok, payload := .signal 0x11 0x01 } ∧
    rspOf (exec (.onSignal (zeroPairs 96)) State.reset) = some { status := .ok, payload := .signal 0x00 0x00 } := by
  decide +kernel

theorem test_onSignal_none :
    rspOf (exec (.onSignal (zeroPairs 50)) State.reset) = some { status := .ok, payload := .noSignal } ∧
    rspOf (exec (.onSignal (edgePairs (frameV1.set 11 0x28))) State.reset) =
      some { status := .ok, payload := .noSignal } := by decide +kernel

/-! ## RESERVED: V48 -/

theorem test_reserved_V48 :
    exec .reserved State.reset = .next { State.reset with rsp := some { status := .refused, payload := .none } } := rfl

/-! ## Steps -/

theorem test_reset_waits : step State.reset = .next State.reset := rfl

theorem test_step_runs_table_word :
    rspOf (step (State.reset.withFetchWord 8 0)) = some { status := .ok, payload := .frame (builtFrame 0 0 0) } ∧
    rspOf (step (State.reset.withFetchWord 8 4)) = some { status := .truncated, payload := .none } ∧
    rspOf (step (State.reset.withFetchWord 8 7)) = some { status := .refused, payload := .none } := by decide +kernel

/-! ## The host's side: R68, R75, and the assembly lines of P1 to P4 -/

theorem test_assemble_P1_P4 :
    assemble "BUILD_FRAME 0xF9CB, 0x11, 0x01".toList = some [.buildFrame 0xF9CB 0x11 0x01] ∧
    assemble "CHECKSUM 0x12, 0x34".toList = some [.checksum [0x12, 0x34]] ∧
    assemble "SEND 0x1234, 0x56, 0x78, 1".toList = some [.send 0x1234 0x56 0x78 1] ∧
    assemble "DEMODULATE (105, 104), (-105, 104)".toList = some [.demodulate [pair 105 104, pair (-105) 104]] ∧
    assemble "DEMODULATE_FLAT 105, 104, 121, 104, 7".toList = some [.demodulate [pair 105 104, pair 121 104]] ∧
    assemble "TRANSMIT_FRAME 0xF9CB, 0x11, 0x01".toList =
      some [.buildFrame 0xF9CB 0x11 0x01, .modulate frameV1.toList] ∧
    assemble "CHECKSUM 0x100".toList = none := by decide +kernel

/-! ## Witnesses: for each statement with hypotheses, a case that meets them all -/

/-- BuildFrameResult, ChecksumResult, VerifyResult, ModulateResult, DemodulateResult, SendResult, OnSignalResult,
ReservedAndMalformedRefused: a request of each selector. -/
theorem witness_selectors :
    (reqOp 0b000).op = 0b000#3 ∧ (reqOp 0b001).op = 0b001#3 ∧ (reqOp 0b010).op = 0b010#3 ∧ (reqOp 0b011).op = 0b011#3 ∧
    (reqOp 0b100).op = 0b100#3 ∧ (reqOp 0b101).op = 0b101#3 ∧ (reqOp 0b110).op = 0b110#3 ∧ (reqOp 0b111).op = 0b111#3 := by
  decide

/-- BuildFrameInjective: two runs that answer one frame. -/
theorem witness_buildFrame_same_frame :
    ∃ t, exec (.buildFrame 0xFFFF 0xFF 0x00) State.reset = .next t ∧
      t.rsp = some { status := .ok, payload := .frame (builtFrame 0xFFFF 0xFF 0x00) } := ⟨_, rfl, rfl⟩

/-- FrameValueBitOrder: the two ends of the bit range, and V1's bit 0. -/
theorem witness_bit_range : (0 < 96) ∧ (95 < 96) ∧ (frameValue frameV1).getLsbD (95 - 0) = true ∧
    (frameValue frameV1).getLsbD (95 - 95) = true := by decide +kernel

/-- ChecksumResult, VerifyResult, AccumulatorKeepsExactSum, VerifyIffSumZero, ModulateResult: lengths on both sides of each
bound. -/
theorem witness_lengths :
    (List.replicate 7 (0 : Byte)).length = 7 ∧ (List.replicate 8 (0 : Byte)).length ≠ 7 ∧
    (List.replicate 8 (0 : Byte)).length = 8 ∧ (List.replicate 7 (0 : Byte)).length ≠ 8 ∧
    (List.replicate 11 (0 : Byte)).length ≠ 12 ∧ (List.replicate 13 (0 : Byte)).length ≠ 12 := by decide

/-- SingleBitFlipDetected: the bytes of V19f, the last bit of the last byte. -/
theorem witness_single_bit_flip :
    let v : List Byte := [0x2D, 0xD4, 0xF9, 0xCB, 0x00, 0x11, 0x01, 0x29]
    v.length = 8 ∧ 7 < 8 ∧ v[7]? = some 0x29 ∧
      rspOf (exec (.verify v) State.reset) = some { status := .ok, payload := .verified true } := by decide +kernel

/-- ChecksumBlindSpots: (a) V19j, (b) V19i, (c) two frames that differ in byte 0. -/
theorem witness_blind_spots :
    (([0x2D, 0xD4, 0xF9, 0xCB, 0x00, 0x11, 0x01, 0x29] : List Byte).map BitVec.toNat).sum % 256 =
      (([0x2E, 0xD3, 0xF9, 0xCB, 0x00, 0x11, 0x01, 0x29] : List Byte).map BitVec.toNat).sum % 256 ∧
    ([0x2D, 0xD4, 0xF9, 0xCB, 0x00, 0x11, 0x01, 0x29] : List Byte).Perm [0xD4, 0x2D, 0xF9, 0xCB, 0x00, 0x11, 0x01, 0x29] ∧
    ∀ k : Fin 12, 4 ≤ k.val → frameV1[k] = (frameV1.set 0 0x55)[k] := by
  exact ⟨by decide, List.Perm.swap _ _ _, by decide⟩

/-- ModulateRecoverable: two runs with one response. -/
theorem witness_modulate_same_response :
    ∃ t u, exec (.modulate frameV1.toList) State.reset = .next t ∧ exec (.modulate frameV1.toList) State.reset = .next u ∧
      t.rsp = u.rsp := by
  refine ⟨_, _, rfl, rfl, rfl⟩

/-- PairClassification, NegativeDurationRejected: a pair of neither bit, with a negative duration, at index 0 and at
index 95. -/
theorem witness_negative_duration :
    classify (pair (-105) 104) = none ∧ (pair (-105) 104).mark.toInt < 0 ∧
    [pair (-105) 104][0]? = some (pair (-105) 104) ∧
    (zeroPairs 95 ++ [pair 105 (-1)])[95]? = some (pair 105 (-1)) ∧ (pair 105 (-1)).space.toInt < 0 ∧
    ∀ j < 95, ∀ x, (zeroPairs 95 ++ [pair 105 (-1)])[j]? = some x → classify x ≠ none := by
  refine ⟨by decide, by decide, by decide, by decide +kernel, by decide, fun j hj x hx => ?_⟩
  rw [List.getElem?_append_left (by simpa [zeroPairs] using hj)] at hx
  simp only [zeroPairs, List.getElem?_replicate, hj, ↓reduceIte, Option.some.injEq] at hx
  subst hx
  decide

/-- DemodulateResult, first clause: V35, the bad pair at index 95. -/
theorem witness_demodulate_unexpected :
    95 < 96 ∧ (zeroPairs 95 ++ [pair 200 200])[95]? = some (pair 200 200) ∧ classify (pair 200 200) = none ∧
    rspOf (exec (.demodulate (zeroPairs 95 ++ [pair 200 200])) State.reset) =
      some { status := .unexpectedTiming, payload := .index 95 } := by decide +kernel

/-- DemodulateResult, second clause: V32, one pair short. -/
theorem witness_demodulate_truncated :
    (zeroPairs 95).length < 96 ∧ ∀ x ∈ zeroPairs 95, classify x ≠ none := by decide +kernel

/-- DemodulateResult, third clause: V41 and V37. -/
theorem witness_demodulate_verified :
    (∀ n < 96, ((edgePairs frameV1)[n]?).map classify = some (some (frameBit frameV1 n))) ∧
    checksum (frameSlice frameV1 4 10) = frameV1[11] ∧
    checksum (frameSlice (frameV1.set 11 0x28) 4 10) ≠ (frameV1.set 11 0x28)[11] := by decide +kernel

/-- PairsBeyond96Ignored, AllZeroFalsePositive: 96 pairs at a corner of the box. -/
theorem witness_false_positive :
    (List.replicate 96 (pair 90 119)).length = 96 ∧
    ∀ n < 96, (List.replicate 96 (pair 90 119))[n]? = some (pair 90 119) ∧
      90 ≤ (pair 90 119).mark.toInt ∧ (pair 90 119).space.toInt ≤ 119 := by decide +kernel

/-- ReservedAndMalformedRefused: malformed requests. -/
theorem witness_malformed :
    ({ reqOp 0b001 with bytes := [0x12, 0x34] } : Request).bytes.length ≠ 7 ∧ (reqOp 0b010).bytes.length ≠ 8 ∧
    (reqOp 0b011).bytes.length ≠ 12 := by decide

/-- EncodingRaisesNoError: an operation that is well formed and is no DEMODULATE. -/
theorem witness_encoding_operation :
    (Instr.checksum (List.replicate 7 0xFF)).wellFormed = true ∧
      ∀ pairs, Instr.checksum (List.replicate 7 0xFF) ≠ .demodulate pairs := by
  exact ⟨by decide, fun _ h => by cases h⟩

/-- UnusedFieldsIgnored: two requests that differ in fields CHECKSUM does not use. -/
theorem witness_unused_fields :
    let r : Request := { reqOp 0b001 with bytes := [1] }
    let r' : Request := { r with opw := 7, repeatCount := 9, pairs := zeroPairs 1 }
    r ≠ r' ∧ r.op = r'.op ∧ r.bytes = r'.bytes ∧ r.op ≠ 0b000#3 ∧ r.op ≠ 0b101#3 ∧ r.op ≠ 0b100#3 ∧ r.op ≠ 0b110#3 := by
  decide

/-- StepRunsDecodedOperation, ResultIsFunctionOfRequest: a state with a request pending. -/
theorem witness_request_pending : (State.reset.withFetchWord 8 2).req = some (tableRequest 2) := rfl

/-- StepWaitsOrTakesInput, ResetBetweenOperations, ResetAbandonsOperation: a state with no request pending and the input
to come. -/
theorem witness_inputs :
    State.reset.req = none ∧ State.reset.inputs = [] ∧
    (State.reset.withProgram [reqOp 0b111]).inputs = .request (reqOp 0b111) :: [] ∧
    ({ State.reset with inputs := [.reset] } : State).inputs = .reset :: [] ∧
    ({ State.reset with inputs := [.requestThenReset (reqOp 0b101)] } : State).inputs =
      .requestThenReset (reqOp 0b101) :: [] ∧
    decode (reqOp 0b101) = .send 0 0 0 0 ∧ decode (reqOp 0b000) = .buildFrame 0 0 0 := by decide

/-- OnlySendReachesSink: a step that changes the sink log. -/
theorem witness_send_step : sinkOf (step (State.reset.withFetchWord 8 5)) = [(43, 1)] := by decide +kernel

/-- StepKeepsInvariant: a state with a request pending meets the invariant, and its step answers a next state. -/
theorem witness_invariant :
    (State.reset.withFetchWord 8 7).Inv ∧ ∃ t, step (State.reset.withFetchWord 8 7) = .next t :=
  ⟨⟨rfl, (fun _ h => nomatch h), (fun _ h => nomatch h), (fun _ h => nomatch h),
    by simp [State.unitsBounded, State.withFetchWord, isTableWord, State.reset, ChecksumEngine.start, Modulator.start]⟩,
    _, rfl⟩

/-- RequestSequenceEndState, OrderDoesNotMatter: two requests in two orders, at the reset state. -/
theorem witness_two_orders : State.reset.req = none ∧ [reqOp 0b111, reqOp 0b110].Perm [reqOp 0b110, reqOp 0b111] :=
  ⟨rfl, List.Perm.swap _ _ _⟩

/-- SinkLogCanonical: a log of two runs in canonical form, and one that is not. -/
theorem witness_sinkLogWf :
    sinkLogWf [{ pulses := [105], count := 2 }, { pulses := [-104], count := 1 }] = true ∧
    sinkLogWf [{ pulses := [105], count := 2 }, { pulses := [105], count := 1 }] = false ∧
    sinkLogWf [{ pulses := [105], count := 0 }] = false := by decide

end Sys2Proof.Tests
end

/-! # Proofs: the state, its reset and its steps (10_state.md) -/

namespace Sys2Proof.Machine

open Sys2Proof

/-! ## The operation a request asks for, selector by selector (30_encoding.md R64, R73) -/

section Decode

variable {r : Request}

theorem decode_of_op_buildFrame (h : r.op = 0b000#3) :
    decode r = .buildFrame (opwAddress r.opw) (opwCommand r.opw) (opwMode r.opw) := by simp [decode, h]

theorem decode_of_op_checksum (h : r.op = 0b001#3) : decode r = .checksum r.bytes := by simp [decode, h]

theorem decode_of_op_verify (h : r.op = 0b010#3) : decode r = .verify r.bytes := by simp [decode, h]

theorem decode_of_op_modulate (h : r.op = 0b011#3) : decode r = .modulate r.bytes := by simp [decode, h]

theorem decode_of_op_demodulate (h : r.op = 0b100#3) : decode r = .demodulate r.pairs := by simp [decode, h]

theorem decode_of_op_send (h : r.op = 0b101#3) :
    decode r = .send (opwAddress r.opw) (opwCommand r.opw) (opwMode r.opw) r.repeatCount := by simp [decode, h]

theorem decode_of_op_onSignal (h : r.op = 0b110#3) : decode r = .onSignal r.pairs := by simp [decode, h]

theorem decode_of_op_reserved (h : r.op = 0b111#3) : decode r = .reserved := by simp [decode, h]

end Decode

/-- The eight values of the selector (R64). -/
theorem selector_cases : ∀ op : BitVec 3, op = 0b000#3 ∨ op = 0b001#3 ∨ op = 0b010#3 ∨ op = 0b011#3 ∨
    op = 0b100#3 ∨ op = 0b101#3 ∨ op = 0b110#3 ∨ op = 0b111#3 := by
  decide

/-- The decoder reads only the fields the selector uses (R22, R73). -/
theorem decode_congr {r r' : Request} (hop : r.op = r'.op)
    (hopw : r.op = 0b000#3 ∨ r.op = 0b101#3 → r.opw = r'.opw)
    (hrepeat : r.op = 0b101#3 → r.repeatCount = r'.repeatCount)
    (hbytes : r.op = 0b001#3 ∨ r.op = 0b010#3 ∨ r.op = 0b011#3 → r.bytes = r'.bytes)
    (hpairs : r.op = 0b100#3 ∨ r.op = 0b110#3 → r.pairs = r'.pairs) : decode r = decode r' := by
  rcases selector_cases r.op with h | h | h | h | h | h | h | h <;> have h' := hop ▸ h
  · rw [decode_of_op_buildFrame h, decode_of_op_buildFrame h', hopw (.inl h)]
  · rw [decode_of_op_checksum h, decode_of_op_checksum h', hbytes (.inl h)]
  · rw [decode_of_op_verify h, decode_of_op_verify h', hbytes (.inr (.inl h))]
  · rw [decode_of_op_modulate h, decode_of_op_modulate h', hbytes (.inr (.inr h))]
  · rw [decode_of_op_demodulate h, decode_of_op_demodulate h', hpairs (.inl h)]
  · rw [decode_of_op_send h, decode_of_op_send h', hopw (.inr h), hrepeat h]
  · rw [decode_of_op_onSignal h, decode_of_op_onSignal h', hpairs (.inr h)]
  · rw [decode_of_op_reserved h, decode_of_op_reserved h']

/-! ## The sink log: the handoffs of an operation, and the canonical form (R29, log 4) -/

/-- The pulse sequences an operation hands to the sink, one entry for each handoff (R190). -/
def handoffList (h : Option (PulseSeq × Nat)) : List PulseSeq := sinkHandoffs (logAfter [] h)

/-- An operation's handoffs come after those already made, whatever those are (R29). -/
theorem sinkHandoffs_logAfter (log : List SinkRun) (h : Option (PulseSeq × Nat)) :
    sinkHandoffs (logAfter log h) = sinkHandoffs log ++ handoffList h := by
  rcases h with _ | ⟨p, n⟩ <;> simp [handoffList, logAfter]

/-- The first run of a canonical log is not empty. -/
theorem count_pos_of_sinkLogWf_cons {r : SinkRun} {log : List SinkRun} (h : sinkLogWf (r :: log) = true) :
    0 < r.count := by
  cases log with
  | nil => simpa [sinkLogWf] using h
  | cons q rest =>
    simp only [sinkLogWf, Bool.and_eq_true, decide_eq_true_eq] at h
    obtain ⟨⟨hpos, -⟩, -⟩ := h
    exact hpos

theorem head?_sinkHandoffs_cons (r : SinkRun) (log : List SinkRun) (h : 0 < r.count) :
    (sinkHandoffs (r :: log)).head? = some r.pulses := by
  simp [List.head?_append, List.head?_replicate, Nat.ne_of_gt h]

/-- In terms of the handoffs: a log is canonical if its first run is not empty and takes in every leading handoff of its
sequence, and the runs after it are canonical. -/
theorem sinkLogWf_cons_iff (r : SinkRun) (log : List SinkRun) :
    sinkLogWf (r :: log) = true ↔
      0 < r.count ∧ (sinkHandoffs log).head? ≠ some r.pulses ∧ sinkLogWf log = true := by
  cases log with
  | nil => simp [sinkLogWf]
  | cons q rest =>
    have hq : sinkLogWf (q :: rest) = true → (sinkHandoffs (q :: rest)).head? = some q.pulses :=
      fun h => head?_sinkHandoffs_cons q rest (count_pos_of_sinkLogWf_cons h)
    simp only [sinkLogWf, Bool.and_eq_true, decide_eq_true_eq, and_assoc]
    refine and_congr_right fun _ => and_congr_left fun h => ?_
    rw [hq h, ne_eq, ne_eq, Option.some.injEq, eq_comm]

/-- A list splits in one way into all its leading copies of an element and the rest. -/
theorem replicate_append_inj {α : Type} {a : α} {n m : Nat} {l l' : List α} (hl : l.head? ≠ some a)
    (hl' : l'.head? ≠ some a) (h : List.replicate n a ++ l = List.replicate m a ++ l') : n = m ∧ l = l' := by
  induction n generalizing m with
  | zero =>
    cases m with
    | zero => exact ⟨rfl, h⟩
    | succ m => exact absurd (congrArg List.head? h) hl
  | succ n ih =>
    cases m with
    | zero => exact absurd (congrArg List.head? h.symm) hl'
    | succ m =>
      simp only [List.replicate_succ, List.cons_append, List.cons.injEq, true_and] at h
      obtain ⟨rfl, hrest⟩ := ih h
      exact ⟨rfl, hrest⟩

/-- A canonical log with a run stands for some handoff. -/
theorem sinkHandoffs_cons_ne_nil {r : SinkRun} {log : List SinkRun} (h : sinkLogWf (r :: log) = true) :
    sinkHandoffs (r :: log) ≠ [] := by
  intro hnil
  have hhead := head?_sinkHandoffs_cons r log (count_pos_of_sinkLogWf_cons h)
  simp [hnil] at hhead

/-- A canonical log is determined by its handoffs (log 4). -/
theorem sinkHandoffs_injOn_wf {x y : List SinkRun} (hx : sinkLogWf x = true) (hy : sinkLogWf y = true)
    (h : sinkHandoffs x = sinkHandoffs y) : x = y := by
  induction x generalizing y with
  | nil =>
    cases y with
    | nil => rfl
    | cons q ys => exact absurd h.symm (sinkHandoffs_cons_ne_nil hy)
  | cons r xs ih =>
    cases y with
    | nil => exact absurd h (sinkHandoffs_cons_ne_nil hx)
    | cons q ys =>
      obtain ⟨hr, hrxs, hxs⟩ := (sinkLogWf_cons_iff r xs).1 hx
      obtain ⟨hq, hqys, hys⟩ := (sinkLogWf_cons_iff q ys).1 hy
      obtain ⟨p, n⟩ := r
      obtain ⟨p', m⟩ := q
      have hp : p = p' := by
        have hhead := congrArg List.head? h
        rwa [head?_sinkHandoffs_cons _ _ hr, head?_sinkHandoffs_cons _ _ hq, Option.some.injEq] at hhead
      subst hp
      rw [sinkHandoffs_cons, sinkHandoffs_cons] at h
      obtain ⟨rfl, hrest⟩ := replicate_append_inj hrxs hqys h
      rw [ih hxs hys hrest]

/-! ## Steps and reset -/

/-- Recording an exchange appends to the history and changes nothing else (R29). -/
theorem State.record_of_rsp {t : State} {p : Response} (r : Request) (h : t.rsp = some p) :
    t.record r = { t with history := t.history ++ [{ request := r, response := p }] } := by
  simp [State.record, h]

/-- With a request pending, the step records the exchange in the state its operation ends in (R21, R29). -/
theorem step_of_exec {s t : State} {r : Request} (hreq : s.req = some r)
    (hexec : exec (decode r) s.takeRequest = .next t) : step s = .next (t.record r) := by
  simp [step, hreq, State.carryOut, hexec]

/-- With no request pending and a host input to come, the step takes that input (log 1, log 2). -/
theorem step_of_input {s : State} {e : HostInput} {rest : List HostInput} (hreq : s.req = none)
    (hin : s.inputs = e :: rest) : step s = .next (({ s with inputs := rest } : State).deliver e) := by
  simp [step, hreq, hin]

/-- The units' start values are within their bounds (R26 to R28, R30). -/
theorem reset_unitsBounded : State.reset.unitsBounded := by
  simp [State.unitsBounded, State.reset, ChecksumEngine.start, Modulator.start]

/-! ## The accumulator of the checksum engine -/

/-- The sum a BUILD_FRAME is computed from (R100). -/
theorem byteSum_frameBody (a : BitVec 16) (c m : Byte) :
    byteSum (frameBody a c m) =
      0x2D + 0xD4 + (a.extractLsb' 8 8).toNat + (a.extractLsb' 0 8).toNat + 0x00 + c.toNat + m.toNat := by
  simp only [frameBody, Config.preambleHigh, Config.preambleLow, Config.reservedByte, byteSum_cons, byteSum_nil,
    BitVec.reduceToNat]
  omega

/-- VERIFY of exactly 8 bytes runs the checksum engine on the first 7 (R122). -/
theorem exec_verify_of_length (bytes : List Byte) (s : State) (h : bytes.length = 8) :
    exec (.verify bytes) s =
      .next ((s.runChecksum (bytes.take 7)).2.respond (responseOf (.verify bytes))) := by
  simp [exec, execVerify, responseOf, h]

/-! ## The obligations -/

/-- Settles O37: the response is `responseOf` and the handoffs are those of `handoffOf`, both of the decoded request. -/
theorem resultIsFunctionOfRequest : Obligations.ResultIsFunctionOfRequest := by
  refine ⟨fun r => responseOf (decode r), fun r => handoffList (handoffOf (decode r)), fun s r h => ?_⟩
  obtain ⟨t, hstep, hrsp, hreq, hhist, hlog, hinputs, hfree, -⟩ := step_of_request s r h
  exact ⟨t, hstep, hrsp, hhist, by rw [hlog, sinkHandoffs_logAfter], hreq, hinputs, hfree⟩

/-- Settles O44, by induction on the log: the first run is the leading handoffs of one sequence, all of them. -/
theorem sinkLogCanonical : Obligations.SinkLogCanonical :=
  fun _ _ hx hy h => sinkHandoffs_injOn_wf hx hy h

/-- Settles O30: the two requests decode to one operation. -/
theorem unusedFieldsIgnored : Obligations.UnusedFieldsIgnored := by
  intro r r' hop hopw hrepeat hbytes hpairs s
  rw [decode_congr hop hopw hrepeat hbytes hpairs]

/-- Settles O32: `exec` answers every operation with a response, and leaves the history for the step to extend. -/
theorem stepRunsDecodedOperation : Obligations.StepRunsDecodedOperation := by
  intro s r h
  obtain ⟨t, hexec, hrsp, -, -, hhist, -⟩ := exec_spec (decode r) s.takeRequest
  refine ⟨t, responseOf (decode r), hexec, hrsp, ?_⟩
  rw [step_of_exec h hexec, State.record_of_rsp r hrsp, hhist, State.takeRequest_history]

/-- Settles O34: the step delivers the reset, and the buffer stays as it stands (R28). -/
theorem resetBetweenOperations : Obligations.ResetBetweenOperations :=
  fun s _ hreq hin => ⟨s.demodulator.buffer, step_of_input hreq hin⟩

/-- Settles O40: nothing is observed yet, so only the bounds of the units ask for something. -/
theorem resetMeetsInvariant : Obligations.ResetMeetsInvariant where
  sinkCanonical := rfl
  sinkLegal _ h := nomatch h
  historyLegal _ h := nomatch h
  rspIsLast _ h := nomatch h
  units := reset_unitsBounded

/-- Settles O41: each value is a field of the reset state as R30 gives it. -/
theorem resetValues : Obligations.ResetValues :=
  ⟨rfl, rfl, rfl, rfl, rfl, rfl, rfl, rfl⟩

/-- Settles O47: each of the three operations leaves the accumulator as `ChecksumEngine.addAll` of the seven bytes. -/
theorem accumulatorKeepsExactSum : Obligations.AccumulatorKeepsExactSum := by
  refine fun s => ⟨fun a c m => ⟨_, exec_buildFrame a c m s, ?_⟩, fun bytes h => ⟨_, exec_checksum bytes s h, ?_⟩,
    fun bytes h => ⟨_, exec_verify_of_length bytes s h, ?_⟩⟩
  · rw [State.respond_checksumEngine, State.runFrameBuilder_checksumEngine, addAll_sum, byteSum_frameBody]
  · rw [State.respond_checksumEngine, State.runChecksum_checksumEngine, addAll_sum, byteSum]
  · rw [State.respond_checksumEngine, State.runChecksum_checksumEngine, addAll_sum, byteSum]

end Sys2Proof.Machine

/-! # Proofs: bytes and bits of a frame, and the order of operations (20_memory.md) -/

namespace Sys2Proof.Machine

open Sys2Proof

/-! ## The 96-bit value form of a frame (R43) -/

/-- Each bit of the scan order is a bit of the frame byte it stands in (R42). -/
theorem frameBit_eq_getLsbD (F : Frame) (n : Nat) (hn : n / 8 < 12) :
    frameBit F n = F[n / 8].getLsbD (7 - n % 8) := by
  rw [frameBit, frameByte_eq F _ hn]

/-- Byte `k` of a frame is the byte of its value form that `11 - k` bytes stand below (R43). -/
theorem frameValue_extractByte (F : Frame) (k : Nat) (hk : k < 12) :
    (frameValue F).extractLsb' (8 * (11 - k)) 8 = F[k] := by
  refine BitVec.eq_of_getLsbD_eq fun j hj => ?_
  have hpos : 8 * (11 - k) + j = 95 - (8 * k + (7 - j)) := by omega
  have hbyte : (8 * k + (7 - j)) / 8 = k := by omega
  have hbit : 7 - (8 * k + (7 - j)) % 8 = j := by omega
  rw [BitVec.getLsbD_extractLsb', hpos, frameValue_getLsbD F _ (by omega), frameBit_eq_getLsbD F _ (by omega)]
  simp only [hbyte, hbit, hj, decide_true, Bool.true_and]

/-- Settles O5: the two end bytes are `frameValue_extractByte` at 0 and 11, and each bit is `frameValue_getLsbD`. -/
theorem frameValueBitOrder : Obligations.FrameValueBitOrder := by
  refine fun F => ⟨frameValue_extractByte F 0 (by decide), frameValue_extractByte F 11 (by decide), fun n hn => ?_⟩
  have hbyte : n / 8 < 12 := by omega
  rw [frameValue_getLsbD F n hn, frameBit_eq_getLsbD F n hbyte, getElem!_pos F (n / 8) hbyte]

/-! ## Runs of a sequence of requests (R47, R240) -/

/-- The exchange a request alone gives (R20, R29). -/
def exchangeOf (r : Request) : Exchange := { request := r, response := responseOf (decode r) }

/-- The handoffs to the sink a request alone gives (R20, R190). -/
def handoffsOf (r : Request) : List PulseSeq := handoffList (handoffOf (decode r))

/-- A run goes on from the state its first step ends in. -/
theorem run_succ_of_step {s t : State} (h : step s = .next t) (k : Nat) :
    Host.Core.run Sys2Proof.core (k + 1) s = Host.Core.run Sys2Proof.core k t := by
  have hcore : Sys2Proof.core.step s = .next t := h
  simp only [Host.Core.run, hcore]

/-- Two steps take a request from the host inputs and carry it out: what is observed grows by what the request alone gives
(R20, R47), and the core is idle again. -/
theorem run_of_request_input {s : State} {r : Request} {rest : List HostInput} (hreq : s.req = none)
    (hin : s.inputs = .request r :: rest) :
    ∃ t : State, (∀ k, Host.Core.run Sys2Proof.core (k + 2) s = Host.Core.run Sys2Proof.core k t) ∧
      t.req = none ∧ t.inputs = rest ∧ t.history = s.history ++ [exchangeOf r] ∧
      t.handoffs = s.handoffs ++ handoffsOf r := by
  obtain ⟨t, hstep, -, htreq, hhist, hlog, htin, -⟩ :=
    step_of_request (({ s with inputs := rest } : State).writeRequest r) r rfl
  refine ⟨t, fun k => ?_, htreq, htin, hhist, ?_⟩
  · rw [run_succ_of_step (step_of_input hreq hin), ← run_succ_of_step hstep]
    rfl
  · rw [State.handoffs, hlog, sinkHandoffs_logAfter]
    rfl

/-- From an idle core with a sequence of requests to come, two steps for each request carry all of them out, in order. -/
theorem run_of_request_inputs (requests : List Request) {s : State} (hreq : s.req = none)
    (hin : s.inputs = requests.map HostInput.request) :
    ∃ t : State, Host.Core.run Sys2Proof.core (2 * requests.length) s = .next t ∧
      t.history = s.history ++ requests.map exchangeOf ∧
      t.handoffs = s.handoffs ++ requests.flatMap handoffsOf ∧ t.req = none ∧ t.inputs = [] := by
  induction requests generalizing s with
  | nil => exact ⟨s, rfl, by simp, by simp, hreq, hin⟩
  | cons r requests ih =>
    obtain ⟨u, hrun, hureq, huin, huhist, huhand⟩ := run_of_request_input hreq hin
    obtain ⟨t, hrest, hhist, hhand, htreq, htin⟩ := ih hureq huin
    refine ⟨t, ?_, by simp [hhist, huhist], by simp [hhand, huhand], htreq, htin⟩
    rw [List.length_cons, Nat.mul_succ, hrun, hrest]

/-- A program run at an idle core ends, with what was observed before and then what each of its requests alone gives, in
order (R240). -/
theorem run_withProgram (requests : List Request) {s : State} (hreq : s.req = none) :
    ∃ t : State, Host.Core.run Sys2Proof.core (2 * requests.length) (s.withProgram requests) = .next t ∧
      t.history = s.history ++ requests.map exchangeOf ∧
      t.handoffs = s.handoffs ++ requests.flatMap handoffsOf ∧ t.req = none ∧ t.inputs = [] :=
  run_of_request_inputs requests (s := s.withProgram requests) hreq rfl

/-- Settles O43: each run observes what its requests alone give, so permuted requests give permuted observations. -/
theorem orderDoesNotMatter : Obligations.OrderDoesNotMatter := by
  intro requests requests' s hreq hperm
  obtain ⟨t, hrun, hhist, hhand, -⟩ := run_withProgram requests hreq
  obtain ⟨t', hrun', hhist', hhand', -⟩ := run_withProgram requests' hreq
  refine ⟨t, t', hrun, hrun', ?_, ?_⟩
  · rw [hhist, hhist']
    exact (hperm.map exchangeOf).append_left s.history
  · rw [hhand, hhand']
    exact (hperm.flatMap_right handoffsOf).append_left s.handoffs

end Sys2Proof.Machine

/-! # Proofs: requests, responses and the invariant (30_encoding.md) -/

namespace Sys2Proof.Machine

open Sys2Proof

/-! ## Every response is one its operation admits (R71) -/

/-- ON_SIGNAL answers OK whatever DEMODULATE answered: with no signal, or with a command and a mode (R192). -/
theorem onSignalResponse_cases (r : Response) :
    onSignalResponse r = { status := .ok, payload := .noSignal } ∨
      ∃ c m, onSignalResponse r = { status := .ok, payload := .signal c m } := by
  unfold onSignalResponse
  split
  · exact .inr ⟨_, _, rfl⟩
  · exact .inl rfl

/-- Each way a decode ends is a row of DEMODULATE in the table, with the bounds it states (R168). -/
theorem admits_demodulateResponse (pairs : List Pair) :
    admits (.demodulate pairs) (demodulateResponse (demodulated pairs)) := by
  rcases demodulated_cases pairs with ⟨i, hi, hlen, -, -, e⟩ | ⟨hlen, -, e⟩ | ⟨hlen, F, -, e⟩
  · exact .inr (.inl ⟨i, hi, hlen, by rw [e]; rfl⟩)
  · exact .inr (.inr (.inl ⟨hlen, by rw [e]; rfl⟩))
  · by_cases hF : checksum (frameSlice F 4 10) = F[11]
    · exact .inl ⟨F, hF, hlen, by rw [e, if_pos hF]; rfl⟩
    · exact .inr (.inr (.inr ⟨F, hF, hlen, by rw [e, if_neg hF]; rfl⟩))

/-- The response of every operation is one the operation admits. -/
theorem admits_responseOf (i : Instr) : admits i (responseOf i) := by
  cases i with
  | buildFrame a c m => rfl
  | checksum bytes =>
    by_cases h : bytes.length = 7
    · exact .inl ⟨h, if_pos h⟩
    · exact .inr ⟨h, if_neg h⟩
  | verify bytes =>
    by_cases h : bytes.length = 8
    · exact .inl ⟨h, _, if_pos h⟩
    · exact .inr ⟨h, if_neg h⟩
  | modulate bytes =>
    by_cases h : bytes.length = 12
    · obtain ⟨F, rfl⟩ := exists_frame_of_length bytes h
      exact .inl ⟨h, modulated F, legalPulses_modulated F, by simp [responseOf, frameOfBytes_toList]⟩
    · exact .inr ⟨h, by simp [responseOf, (frameOfBytes_eq_none bytes).2 h]⟩
  | demodulate pairs => exact admits_demodulateResponse pairs
  | send a c m k => rfl
  | onSignal pairs => exact onSignalResponse_cases _
  | reserved => rfl

/-- Settles O27: the operation answers `responseOf`, which it admits. -/
theorem responsePayloadsLegal : Obligations.ResponsePayloadsLegal := by
  intro i s
  obtain ⟨t, hexec, hrsp, -⟩ := exec_spec i s
  exact ⟨t, responseOf i, hexec, hrsp, admits_responseOf i⟩

/-! ## Decoding and encoding (R64 to R68, R70) -/

/-- Settles O29: the selector of the encoded request picks the operation's own row, and its fields hold the operands; the
operand word comes apart into the three it was packed from. -/
theorem decodeInvertsEncode : Obligations.DecodeInvertsEncode := by
  intro i
  cases i with
  | buildFrame a c m =>
    rw [decode_of_op_buildFrame rfl]
    simp only [encode, opwAddress_packOpw, opwCommand_packOpw, opwMode_packOpw]
  | checksum bytes => exact decode_of_op_checksum rfl
  | verify bytes => exact decode_of_op_verify rfl
  | modulate bytes => exact decode_of_op_modulate rfl
  | demodulate pairs => exact decode_of_op_demodulate rfl
  | send a c m k =>
    rw [decode_of_op_send rfl]
    simp only [encode, opwAddress_packOpw, opwCommand_packOpw, opwMode_packOpw]
  | onSignal pairs => exact decode_of_op_onSignal rfl
  | reserved => exact decode_of_op_reserved rfl

/-- Settles O31: each request is decoded by the row its selector names. -/
theorem decodedRequests : Obligations.DecodedRequests :=
  ⟨decode_of_op_buildFrame rfl, decode_of_op_checksum rfl, decode_of_op_verify rfl, decode_of_op_modulate rfl,
    decode_of_op_demodulate rfl, decode_of_op_send rfl, decode_of_op_onSignal rfl, decode_of_op_reserved rfl⟩

/-- The code of a status names that status (R70). -/
theorem Status.ofCode_code (st : Status) : Status.ofCode st.code = some st := by
  cases st <;> rfl

/-- A 3-bit code that names no status is the code of none (R70). -/
theorem Status.code_ne_of_ofCode_eq_none {c : BitVec 3} (h : Status.ofCode c = none) (st : Status) : st.code ≠ c := by
  rintro rfl
  simp [Status.ofCode_code] at h

/-- Settles O26: the table of codes, and `Status.ofCode_code`. -/
theorem statusCodes : Obligations.StatusCodes :=
  ⟨rfl, rfl, rfl, rfl, rfl, Status.ofCode_code, rfl, rfl, rfl⟩

/-- Refusing a request writes REFUSED on RSP and changes nothing else (R72). -/
theorem State.refuse_eq (s : State) : s.refuse = { s with rsp := some { status := .refused, payload := .none } } := rfl

/-- Settles O25: the reserved selector and each malformed byte list decode to an operation that refuses. -/
theorem reservedAndMalformedRefused : Obligations.ReservedAndMalformedRefused := by
  refine ⟨fun r => decode_of_op_reserved, exec_reserved, fun r s h => ?_, fun st =>
    ⟨Status.code_ne_of_ofCode_eq_none rfl st, Status.code_ne_of_ofCode_eq_none rfl st,
      Status.code_ne_of_ofCode_eq_none rfl st⟩⟩
  rw [← State.refuse_eq]
  rcases h with ⟨hop, hlen⟩ | ⟨hop, hlen⟩ | ⟨hop, hlen⟩ | hop
  · rw [decode_of_op_checksum hop, exec_checksum_refused r.bytes s hlen]
  · rw [decode_of_op_verify hop, exec_verify_refused r.bytes s hlen]
  · rw [decode_of_op_modulate hop, exec_modulate_refused r.bytes s hlen]
  · rw [decode_of_op_reserved hop, exec_reserved]

/-! ## Frames and captures (R61, R68, R75) -/

/-- Settles O4: a built frame is an assembled frame whose checksum byte is that of its body. -/
theorem builtFrameValueLayout : Obligations.BuiltFrameValueLayout :=
  fun a c m => ⟨checksum (frameBody a c m), frameValue_assembleFrame a c m _, rfl⟩

/-- A flat list has a pair for every two of its elements; an odd one is in no pair (R68). -/
theorem length_pairFlat (p : List I32) : (pairFlat p).length = p.length / 2 := by
  induction p using pairFlat.induct with
  | case1 m s rest ih => simp only [pairFlat, List.length_cons, ih]; omega
  | case2 m => simp [pairFlat]
  | case3 => rfl

/-- Pair `i` of a flat list holds its elements `2i` and `2i + 1` (R68). -/
theorem getElem?_of_getElem?_pairFlat {p : List I32} {i : Nat} {x : Pair} (h : (pairFlat p)[i]? = some x) :
    p[2 * i]? = some x.mark ∧ p[2 * i + 1]? = some x.space := by
  induction p using pairFlat.induct generalizing i with
  | case1 m s rest ih =>
    cases i with
    | zero =>
      obtain rfl : (⟨m, s⟩ : Pair) = x := Option.some.inj h
      exact ⟨rfl, rfl⟩
    | succ i => exact ih h
  | case2 m => simp [pairFlat] at h
  | case3 => simp [pairFlat] at h

/-- Settles O45: the length and the elements of the pairing, each by the recursion of `pairFlat`. -/
theorem flatListPairing : Obligations.FlatListPairing :=
  fun p => ⟨length_pairFlat p, fun _ _ h => getElem?_of_getElem?_pairFlat h⟩

/-- Settles O46: BUILD_FRAME answers `builtFrame`, whose bytes `transmitFrame` passes to MODULATE. -/
theorem transmitFrameExpansion : Obligations.TransmitFrameExpansion :=
  fun a c m s => ⟨builtFrame a c m, _, exec_buildFrame a c m s, rfl, rfl⟩

/-! ## What every step keeps (R26 to R28, R67, R71) -/

/-- Whatever an operation hands to the sink has the properties of R67. -/
theorem legalPulses_of_handoffOf {i : Instr} {p : PulseSeq} {n : Nat} (h : handoffOf i = some (p, n)) :
    legalPulses p := by
  cases i with
  | send a c m k =>
    obtain ⟨rfl, -⟩ := Prod.mk.inj (Option.some.inj h)
    exact legalPulses_modulated _
  | _ => cases h

/-- Further handoffs keep the canonical form of the sink log (log 4). -/
theorem sinkLogWf_logAfter {log : List SinkRun} (h : sinkLogWf log = true) (o : Option (PulseSeq × Nat)) :
    sinkLogWf (logAfter log o) = true := by
  rcases o with _ | ⟨p, n⟩
  · exact h
  · exact sinkLogWf_appendRun p n log h

/-- Further handoffs of a legal sequence keep every sequence of the sink log legal (R67). -/
theorem legalPulses_logAfter {log : List SinkRun} {o : Option (PulseSeq × Nat)}
    (hlog : ∀ run ∈ log, legalPulses run.pulses) (ho : ∀ p n, o = some (p, n) → legalPulses p) :
    ∀ run ∈ logAfter log o, legalPulses run.pulses := by
  rcases o with _ | ⟨p, n⟩
  · exact hlog
  · intro run hrun
    rcases mem_appendRun p n log run hrun with h | ⟨r, hr, h⟩
    · exact h ▸ ho p n rfl
    · exact h ▸ hlog r hr

/-- A reset sets the units to start values within their bounds, whatever they held (R30, R230). -/
theorem State.resetCore_unitsBounded (s : State) : s.resetCore.unitsBounded := by
  simp [State.unitsBounded, Demodulator.begin, ChecksumEngine.start, Modulator.start]

/-- A reset keeps the invariant: what has been observed stays, and RSP is empty (R230, R231). -/
theorem State.Inv.resetCore {s : State} (h : s.Inv) : s.resetCore.Inv where
  sinkCanonical := h.sinkCanonical
  sinkLegal := h.sinkLegal
  historyLegal := h.historyLegal
  rspIsLast _ hp := nomatch hp
  units := s.resetCore_unitsBounded

/-- A request written on REQ keeps the invariant: RSP is emptied (R22). -/
theorem State.Inv.writeRequest {s : State} (h : s.Inv) (r : Request) : (s.writeRequest r).Inv where
  sinkCanonical := h.sinkCanonical
  sinkLegal := h.sinkLegal
  historyLegal := h.historyLegal
  rspIsLast _ hp := nomatch hp
  units := h.units

/-- An abandoned operation keeps the invariant: the handoffs that stay made are of a legal sequence (R231). -/
theorem State.Inv.abandon {s : State} (h : s.Inv) (r : Request) : (s.abandon r).Inv := by
  obtain ⟨k, n, e, -⟩ := abandon_spec s r
  rw [e]
  refine State.Inv.resetCore ⟨sinkLogWf_logAfter h.sinkCanonical _, legalPulses_logAfter h.sinkLegal ?_,
    h.historyLegal, h.rspIsLast, h.units⟩
  intro p m hp
  obtain ⟨⟨q, j⟩, hq, hpair⟩ := Option.map_eq_some_iff.1 hp
  obtain ⟨rfl, -⟩ := Prod.mk.inj hpair
  exact legalPulses_of_handoffOf hq

/-- Every host input keeps the invariant. -/
theorem State.Inv.deliver {s : State} (h : s.Inv) (e : HostInput) : (s.deliver e).Inv := by
  cases e with
  | request r => exact h.writeRequest r
  | reset => exact h.resetCore
  | requestThenReset r => exact h.abandon r

/-- The host inputs still to come have no part in the invariant. -/
theorem State.Inv.withInputs {s : State} (h : s.Inv) (inputs : List HostInput) :
    ({ s with inputs := inputs } : State).Inv :=
  ⟨h.sinkCanonical, h.sinkLegal, h.historyLegal, h.rspIsLast, h.units⟩

/-- Carrying out a pending request keeps the invariant: the exchange it records is one the request admits, and its response
is the one on RSP. -/
theorem State.Inv.step_of_request {s t : State} {r : Request} (h : s.Inv) (hreq : s.req = some r)
    (hstep : step s = .next t) : t.Inv := by
  obtain ⟨u, hu, hrsp, -, hhist, hlog, -, -, hunits⟩ := Machine.step_of_request s r hreq
  obtain rfl : t = u := by rw [hstep] at hu; exact Host.Outcome.next.inj hu
  refine ⟨?_, ?_, ?_, ?_, hunits h.units⟩
  · rw [hlog]
    exact sinkLogWf_logAfter h.sinkCanonical _
  · rw [hlog]
    exact legalPulses_logAfter h.sinkLegal fun _ _ => legalPulses_of_handoffOf
  · intro e he
    rw [hhist] at he
    rcases List.mem_append.1 he with he | he
    · exact h.historyLegal e he
    · rw [List.mem_singleton.1 he]
      exact admits_responseOf _
  · intro p hp
    rw [← hp, hrsp, hhist, List.getLast?_concat]
    rfl

/-- Settles O39: a step carries out the pending request, or takes a host input, or waits, and each keeps the invariant. -/
theorem stepKeepsInvariant : Obligations.StepKeepsInvariant := by
  intro s t h hstep
  cases hreq : s.req with
  | some r => exact h.step_of_request hreq hstep
  | none =>
    rcases step_of_no_request s hreq with ⟨-, hwait⟩ | ⟨e, rest, -, htake⟩
    · obtain rfl : s = t := Host.Outcome.next.inj (hwait.symm.trans hstep)
      exact h
    · obtain rfl := Host.Outcome.next.inj (htake.symm.trans hstep)
      exact (h.withInputs rest).deliver e

end Sys2Proof.Machine

/-! # Proofs: the frame builder (41_frame_builder.md) -/

namespace Sys2Proof.Machine

open Sys2Proof

/-! ## The frame BUILD_FRAME answers (R60, R100) -/

/-- A frame that BUILD_FRAME answers is the built frame of its operands. -/
theorem eq_builtFrame_of_exec {a : BitVec 16} {c m : Byte} {s t : State} {F : Frame}
    (hexec : exec (.buildFrame a c m) s = .next t)
    (hrsp : t.rsp = some { status := .ok, payload := .frame F }) : F = builtFrame a c m := by
  obtain rfl := Host.Outcome.next.inj ((exec_buildFrame a c m s).symm.trans hexec)
  rw [State.respond_rsp] at hrsp
  cases hrsp
  rfl

/-- The checksum byte of a built frame, as the two's complement of the exact sum of bytes 4 to 10 (R100, R120). -/
theorem checksum_frameBody (a : BitVec 16) (c m : Byte) :
    checksum (frameBody a c m) = BitVec.ofInt 8 (-(0x2D + 0xD4 + ((a.extractLsb' 8 8).toNat : Int) +
      (a.extractLsb' 0 8).toNat + 0x00 + c.toNat + m.toNat)) := by
  rw [checksum_eq, byteSum_frameBody]
  push_cast
  rfl

/-! ## Where the operands stand in the value form of a built frame (R61, R103) -/

/-- `FV[47:32] = address`: the 32 bits of four bytes stand below it (R61). -/
theorem frameValue_builtFrame_address (a : BitVec 16) (c m : Byte) :
    (frameValue (builtFrame a c m)).extractLsb' 32 16 = a := by
  rw [builtFrame, frameValue_assembleFrame]
  iterate 4 refine (BitVec.extractLsb'_append_eq_of_le (by decide)).trans ?_
  exact BitVec.extractLsb'_append_eq_right

/-- `FV[23:16] = command`, which is frame byte 9 (R61). -/
theorem frameValue_builtFrame_command (a : BitVec 16) (c m : Byte) :
    (frameValue (builtFrame a c m)).extractLsb' 16 8 = c :=
  frameValue_extractByte (builtFrame a c m) 9 (by decide)

/-- `FV[15:8] = mode`, which is frame byte 10 (R61). -/
theorem frameValue_builtFrame_mode (a : BitVec 16) (c m : Byte) :
    (frameValue (builtFrame a c m)).extractLsb' 8 8 = m :=
  frameValue_extractByte (builtFrame a c m) 10 (by decide)

/-- The operands can be read off the built frame (R103). -/
theorem builtFrame_inj {a a' : BitVec 16} {c c' m m' : Byte} (h : builtFrame a c m = builtFrame a' c' m') :
    a = a' ∧ c = c' ∧ m = m' := by
  refine ⟨?_, ?_, ?_⟩
  · rw [← frameValue_builtFrame_address a c m, h, frameValue_builtFrame_address]
  · rw [← frameValue_builtFrame_command a c m, h, frameValue_builtFrame_command]
  · rw [← frameValue_builtFrame_mode a c m, h, frameValue_builtFrame_mode]

/-! ## VERIFY of a whole frame (R102, R122) -/

/-- VERIFY of bytes 4 to 11 answers true for every frame whose checksum holds (R122). -/
theorem exec_verify_of_checksumHolds {F : Frame} (s : State) (h : checksumHolds F) :
    exec (.verify (frameSlice F 4 11)) s =
      .next ((s.runChecksum (frameSlice F 4 10)).2.respond { status := .ok, payload := .verified true }) := by
  have hlen : (frameSlice F 4 10).length = 7 := by rw [frameSlice_body]; rfl
  have hcheck : (checksum (frameSlice F 4 10) == F[11]) = true := beq_iff_eq.2 h
  rw [frameSlice_checked, exec_verify _ _ s hlen, hcheck]

/-! ## The obligations -/

/-- Settles O2: the fixed bytes are those of the layout, and the checksum byte is the one that VERIFY asks for
(`checksum_builtFrame`) and that makes the sum a multiple of 256 (`checksum_eq_iff`). -/
theorem builtFrameChecksumLaw : Obligations.BuiltFrameChecksumLaw := by
  intro a c m s
  have hcheck : checksumHolds (builtFrame a c m) := checksum_builtFrame a c m
  have hsum : (byteSum (frameSlice (builtFrame a c m) 4 10) + (builtFrame a c m)[11].toNat) % 256 = 0 :=
    (checksum_eq_iff _ _).1 hcheck
  exact ⟨builtFrame a c m, _, _, exec_buildFrame a c m s, rfl, rfl, rfl, rfl, rfl, rfl, rfl, rfl, hsum,
    exec_verify_of_checksumHolds s hcheck, rfl⟩

/-- Settles O3: both answers are built frames, and the fields of the value form give each operand back. -/
theorem buildFrameInjective : Obligations.BuildFrameInjective := by
  intro a a' c m c' m' s s' t t' F hexec hexec' hrsp hrsp'
  obtain rfl := eq_builtFrame_of_exec hexec hrsp
  exact ⟨builtFrame_inj (eq_builtFrame_of_exec hexec' hrsp'), frameValue_builtFrame_address a c m,
    frameValue_builtFrame_command a c m, frameValue_builtFrame_mode a c m⟩

/-- Settles O1: the frame is the layout of R60, with the checksum byte of `checksum_frameBody`. -/
theorem buildFrameResult : Obligations.BuildFrameResult := by
  refine ⟨fun r => decode_of_op_buildFrame, fun a c m s => ⟨ChecksumEngine.addAll (frameBody a c m), ?_⟩⟩
  rw [exec_buildFrame, builtFrame, checksum_frameBody]
  rfl

end Sys2Proof.Machine

/-! # Proofs: the checksum engine (42_checksum_engine.md) -/

namespace Sys2Proof.Machine

open Sys2Proof

/-! ## The test of VERIFY (R122, R124) -/

/-- The checksum equals a byte exactly when it is the number the rule writes out (R120, R122). -/
theorem checksum_beq (bytes : List Byte) (c : Byte) :
    (checksum bytes == c) = decide (c.toNat = (256 - byteSum bytes % 256) % 256) := by
  rw [Bool.eq_iff_iff, beq_iff_eq, decide_eq_true_eq, ← checksum_toNat, BitVec.toNat_inj, eq_comm]

/-- VERIFY of 8 bytes answers whether their sum is a multiple of 256, since the checksum of the first 7 is the one byte that
completes it (R124). -/
theorem responseOf_verify {v : List Byte} (h : v.length = 8) :
    responseOf (.verify v) = { status := .ok, payload := .verified (decide (byteSum v % 256 = 0)) } := by
  have hlt : 7 < v.length := by omega
  have hsum : byteSum v = byteSum (v.take 7) + v[7].toNat := by
    have hsplit : v.take 7 ++ [v[7]] = v := by
      rw [List.take_append_getElem hlt, List.take_of_length_le (by omega)]
    calc byteSum v = byteSum (v.take 7 ++ [v[7]]) := by rw [hsplit]
      _ = byteSum (v.take 7) + v[7].toNat := by rw [byteSum_append, byteSum_cons, byteSum_nil, add_zero]
  have hcheck : (some (checksum (v.take 7)) == v[7]?) = decide (byteSum v % 256 = 0) := by
    rw [Bool.eq_iff_iff, List.getElem?_eq_getElem hlt, beq_iff_eq, Option.some.injEq, checksum_eq_iff, hsum,
      decide_eq_true_eq]
  rw [responseOf, if_pos h, hcheck]

/-- VERIFY of 8 bytes ends in a state with that answer on RSP. -/
theorem exec_verify_answers {v : List Byte} (s : State) (h : v.length = 8) :
    ∃ t, exec (.verify v) s = .next t ∧
      t.rsp = some { status := .ok, payload := .verified (decide (byteSum v % 256 = 0)) } :=
  ⟨_, exec_verify_of_length v s h, by rw [State.respond_rsp, responseOf_verify h]⟩

/-- VERIFY does not tell two lists of 8 bytes apart whose sums are equal mod 256 (R126). -/
theorem exec_verify_congr {v w : List Byte} (s : State) (hv : v.length = 8) (hw : w.length = 8)
    (hsum : byteSum v % 256 = byteSum w % 256) :
    ∃ t u, exec (.verify v) s = .next t ∧ exec (.verify w) s = .next u ∧ t.rsp = u.rsp ∧ t.rsp ≠ none := by
  obtain ⟨t, ht, htrsp⟩ := exec_verify_answers s hv
  obtain ⟨u, hu, hursp⟩ := exec_verify_answers s hw
  exact ⟨t, u, ht, hu, by rw [htrsp, hursp, hsum], by rw [htrsp]; nofun⟩

/-! ## Replacing one byte (R125) -/

/-- Replacing a byte of a list changes its sum by the difference of the two bytes. -/
theorem byteSum_set {v : List Byte} {j : Nat} {b : Byte} (h : v[j]? = some b) (c : Byte) :
    byteSum (v.set j c) + b.toNat = byteSum v + c.toNat := by
  induction v generalizing j with
  | nil => simp at h
  | cons x rest ih =>
    cases j with
    | zero =>
      obtain rfl : x = b := by simpa using h
      simp only [List.set_cons_zero, byteSum_cons]
      omega
    | succ j =>
      have hrest := ih (j := j) (by simpa using h)
      simp only [List.set_cons_succ, byteSum_cons]
      omega

/-- One byte of a list whose sum is a multiple of 256 is fixed by the others. -/
theorem byteSum_set_mod_ne_zero {v : List Byte} {j : Nat} {b c : Byte} (h : v[j]? = some b) (hc : c ≠ b)
    (hsum : byteSum v % 256 = 0) : byteSum (v.set j c) % 256 ≠ 0 := by
  have hset := byteSum_set h c
  have hne : c.toNat ≠ b.toNat := fun e => hc (BitVec.toNat_inj.1 e)
  have := b.isLt
  have := c.isLt
  omega

/-- Flipping a bit of a byte gives another byte. -/
theorem flipBit_ne (b : Byte) {k : Nat} (hk : k < 8) : b ^^^ (1#8 <<< k) ≠ b := by
  intro h
  have hbit := congrArg (BitVec.getLsbD · k) h
  simp [hk] at hbit

/-! ## Captures that differ in bytes 0 to 3 only (R126) -/

/-- The edge pairs of a frame write its bits (R164). -/
theorem pairBit_edgePairs (F : Frame) {n : Nat} (hn : n < 96) : pairBit (edgePairs F) n = some (frameBit F n) := by
  have hone : classify { mark := 89, space := 104 } = some true := by decide
  have hzero : classify { mark := 105, space := 104 } = some false := by decide
  have hget : (edgePairs F)[n]? =
      some (if frameBit F n then { mark := 89, space := 104 } else { mark := 105, space := 104 }) := by
    simp [edgePairs, Config.frameBits, hn]
  rw [pairBit, hget, Option.bind_some]
  cases frameBit F n
  · exact hzero
  · exact hone

/-- The status of a decode of 96 pairs that write a frame says whether its checksum holds (R160, R166). -/
theorem status_demodulateResponse_of_bits {pairs : List Pair} {F : Frame}
    (h : ∀ n < 96, pairBit pairs n = some (frameBit F n)) :
    (demodulateResponse (demodulated pairs)).status =
      if checksum (frameSlice F 4 10) = F[11] then .ok else .checksumMismatch := by
  rw [demodulated_of_bits pairs F h]
  split <;> rfl

/-- Two frames that agree from byte 4 on have the same bytes 4 to 10, the ones the checksum is taken over (R126). -/
theorem frameSlice_body_congr {F G : Frame} (h : ∀ k : Fin 12, 4 ≤ k.val → F[k] = G[k]) :
    frameSlice F 4 10 = frameSlice G 4 10 := by
  simp only [frameSlice_body, List.cons.injEq]
  exact ⟨h 4 (by decide), h 5 (by decide), h 6 (by decide), h 7 (by decide), h 8 (by decide), h 9 (by decide),
    h 10 (by decide), trivial⟩

/-! ## The obligations -/

/-- Settles O6: `exec_checksum` and `exec_checksum_refused`, with the checksum as a number by `checksum_toNat`. -/
theorem checksumResult : Obligations.ChecksumResult :=
  ⟨fun _ => decode_of_op_checksum, fun bytes s =>
    ⟨fun h => ⟨checksum bytes, ChecksumEngine.addAll bytes, checksum_toNat bytes, exec_checksum bytes s h⟩,
      exec_checksum_refused bytes s⟩⟩

/-- Settles O7: `exec_verify` and `exec_verify_refused`, with the comparison as one of numbers by `checksum_beq`. -/
theorem verifyResult : Obligations.VerifyResult := by
  refine ⟨fun _ => decode_of_op_verify, fun body last s h => ⟨ChecksumEngine.addAll body, ?_⟩, exec_verify_refused⟩
  rw [exec_verify body last s h, checksum_beq]
  rfl

/-- Settles O8: the answer of VERIFY is whether the sum is a multiple of 256. -/
theorem verifyIffSumZero : Obligations.VerifyIffSumZero := by
  intro v s h
  obtain ⟨t, hexec, hrsp⟩ := exec_verify_answers s h
  exact ⟨t, _, hexec, hrsp, decide_eq_true_iff⟩

/-- Settles O9: the sum was a multiple of 256, and a flipped byte is another byte, so it no longer is. -/
theorem singleBitFlipDetected : Obligations.SingleBitFlipDetected := by
  intro v s t j k b hv hk hb hexec hrsp
  obtain ⟨t', hexec', hrsp'⟩ := exec_verify_answers s hv
  obtain rfl := Host.Outcome.next.inj (hexec.symm.trans hexec')
  have hsum : byteSum v % 256 = 0 := by simpa [hrsp'] using hrsp
  obtain ⟨u, hflip, hursp⟩ := exec_verify_answers s (v := v.set j (b ^^^ (1#8 <<< k))) (by rw [List.length_set, hv])
  refine ⟨u, hflip, ?_⟩
  rw [hursp, decide_eq_false (byteSum_set_mod_ne_zero hb (flipBit_ne b hk) hsum)]

/-- Settles O10: VERIFY answers by the sum mod 256 alone, which a reordering keeps, and DEMODULATE's status depends on bytes
4 to 11 of the frame alone. -/
theorem checksumBlindSpots : Obligations.ChecksumBlindSpots := by
  refine ⟨fun v w s hv hw hsum => exec_verify_congr s hv hw hsum, fun v w s hv hperm => ?_, fun F G s h => ?_⟩
  · exact exec_verify_congr s hv (hperm.length_eq ▸ hv) (by rw [byteSum_perm hperm])
  · have hlast : F[11] = G[11] := h 11 (by decide)
    refine ⟨_, _, _, _, exec_demodulate _ s, exec_demodulate _ s, rfl, rfl, ?_⟩
    rw [status_demodulateResponse_of_bits fun _ => pairBit_edgePairs F,
      status_demodulateResponse_of_bits fun _ => pairBit_edgePairs G, frameSlice_body_congr h, hlast]

end Sys2Proof.Machine

/-! # Proofs: the pulse modulator (43_pulse_modulator.md) -/

namespace Sys2Proof.Machine

open Sys2Proof

/-! ## MODULATE's answer, and the laws of its sequence by name (R140, R142) -/

/-- MODULATE of a frame answers the frame's pulse sequence, whatever the state (R140). -/
theorem exec_modulate_answers (F : Frame) (s : State) :
    ∃ t, exec (.modulate F.toList) s = .next t ∧
      t.rsp = some { status := .ok, payload := .pulses (modulated F).length (modulated F) } :=
  ⟨_, exec_modulate F s, rfl⟩

theorem expandRuns_modulated (F : Frame) : expandRuns (modulated F) = scanBits F 96 := by
  obtain ⟨hexp, -⟩ := modulator_run F
  exact hexp

theorem exists_runEntry_of_mem_modulated {F : Frame} {e : I32} (h : e ∈ modulated F) :
    ∃ b r, 1 ≤ r ∧ r ≤ 96 ∧ e = runEntry b r := by
  obtain ⟨-, -, hent, -⟩ := modulator_run F
  exact hent e h

theorem length_modulated (F : Frame) : (modulated F).length = 1 + bitChanges F 95 := by
  obtain ⟨-, -, -, hlen, -⟩ := modulator_run F
  exact hlen

/-! ## The frame back from its bits (R143) -/

/-- Writing the first `k` bits of a frame one after another gives each of them its value and leaves the others. -/
theorem frameBit_foldl_setFrameBit (f : Nat → Bool) (G : Frame) (k : Nat) {n : Nat} (hn : n < 96) :
    frameBit ((List.range k).foldl (fun F j => setFrameBit F j (f j)) G) n =
      if n < k then f n else frameBit G n := by
  induction k with
  | zero => rfl
  | succ k ih =>
    rw [List.range_succ, List.foldl_append, List.foldl_cons, List.foldl_nil, frameBit_setFrameBit _ _ _ _ hn, ih]
    by_cases hnk : n = k
    · subst hnk
      rw [if_pos rfl, if_pos n.lt_succ_self]
    · rw [if_neg hnk]
      exact if_congr (by omega) rfl rfl

/-- Packing the bits of a frame in scan order gives the frame (R42). -/
theorem packBits_scanBits (F : Frame) : packBits (scanBits F 96) = F := by
  refine frame_ext_bits fun n hn => ?_
  rw [packBits, Config.frameBits, frameBit_foldl_setFrameBit _ _ _ hn, if_pos hn]
  simp [scanBits, hn]

/-- The frame is packed from its expanded pulse sequence (R143). -/
theorem packBits_expandRuns_modulated (F : Frame) : packBits (expandRuns (modulated F)) = F := by
  rw [expandRuns_modulated, packBits_scanBits]

/-- No two frames have one pulse sequence (R143). -/
theorem modulated_injective : Function.Injective modulated :=
  Function.LeftInverse.injective (g := fun p => packBits (expandRuns p)) packBits_expandRuns_modulated

/-- Settles O13: the expanded entries are the frame's bits, and packing is the inverse of reading them. -/
theorem modulateRecoverable : Obligations.ModulateRecoverable := by
  refine ⟨fun F s => ?_, fun F G s s' t u ht hu hrsp => ?_⟩
  · obtain ⟨t, hexec, hrsp⟩ := exec_modulate_answers F s
    exact ⟨t, modulated F, hexec, hrsp, packBits_expandRuns_modulated F⟩
  · obtain rfl := Host.Outcome.next.inj ((exec_modulate F s).symm.trans ht)
    obtain rfl := Host.Outcome.next.inj ((exec_modulate G s').symm.trans hu)
    simp only [State.respond_rsp, Option.some.injEq, Response.mk.injEq, Payload.pulses.injEq, true_and] at hrsp
    obtain ⟨-, hpulses⟩ := hrsp
    exact modulated_injective hpulses

/-! ## The loop of R140 over whole numbers -/

/-- One turn of the fold of R140: the pulse of a bit joins the accumulator, or ends its run and starts the next. -/
def foldPulse (x : Int × List Int) (b : Bool) : Int × List Int :=
  if x.1 = 0 ∨ x.1.sign = (bitPulse b).sign then (x.1 + bitPulse b, x.2) else (bitPulse b, x.2 ++ [x.1])

/-- A pulse joins an empty accumulator, or a run of its own sign. -/
theorem foldPulse_of_join {x : Int × List Int} {b : Bool} (h : x.1 = 0 ∨ x.1.sign = (bitPulse b).sign) :
    foldPulse x b = (x.1 + bitPulse b, x.2) :=
  if_pos h

/-- A pulse of the other sign ends the run in the accumulator. -/
theorem foldPulse_of_end {x : Int × List Int} {b : Bool} (h : ¬(x.1 = 0 ∨ x.1.sign = (bitPulse b).sign)) :
    foldPulse x b = (bitPulse b, x.2 ++ [x.1]) :=
  if_neg h

/-- The end of the fold: a final accumulator that is not 0 is flushed. -/
def flushPulse (x : Int × List Int) : List Int := if x.1 ≠ 0 then x.2 ++ [x.1] else x.2

/-- The accumulator and the output of the modulator as whole numbers. -/
def Modulator.folded (m : Modulator) : Int × List Int := (m.acc, m.out.map BitVec.toInt)

theorem Modulator.step_n (F : Frame) (m : Modulator) : (m.step F).n = m.n + 1 := by
  simp only [Modulator.step]
  split <;> rfl

theorem Modulator.steps_n (F : Frame) (k : Nat) : (Modulator.steps F k Modulator.start).n = k := by
  induction k with
  | zero => rfl
  | succ k ih => rw [Modulator.steps_succ, Modulator.step_n, ih]

/-- In the first `k ≤ 96` turns the accumulator is a whole number of pulses, so it is an `i32` (R140). -/
theorem Modulator.steps_acc_toInt (F : Frame) {k : Nat} (hk : k ≤ 96) :
    (BitVec.ofInt 32 (Modulator.steps F k Modulator.start).acc).toInt =
      (Modulator.steps F k Modulator.start).acc := by
  cases k with
  | zero => rfl
  | succ k =>
    obtain ⟨-, ⟨r, -, hr, hacc, -⟩, -⟩ := Modulator.tracks F k (by omega)
    rw [hacc]
    exact runEntry_toInt _ r (by omega)

/-- A turn of the modulator's loop is a turn of the fold, where the accumulator is an `i32`. -/
theorem Modulator.folded_step (F : Frame) (m : Modulator) (h : (BitVec.ofInt 32 m.acc).toInt = m.acc) :
    (m.step F).folded = foldPulse m.folded (frameBit F m.n) := by
  by_cases hjoin : m.acc = 0 ∨ m.acc.sign = (bitPulse (frameBit F m.n)).sign
  · rw [foldPulse_of_join hjoin, Modulator.step, if_pos hjoin]
    rfl
  · rw [foldPulse_of_end hjoin, Modulator.step, if_neg hjoin]
    simp [Modulator.folded, h]

/-- The modulator's loop is the fold of R140 over the bits in scan order. -/
theorem Modulator.folded_steps (F : Frame) {k : Nat} (hk : k ≤ 96) :
    (Modulator.steps F k Modulator.start).folded = (scanBits F k).foldl foldPulse (0, []) := by
  induction k with
  | zero => rfl
  | succ k ih =>
    rw [Modulator.steps_succ, Modulator.folded_step F _ (Modulator.steps_acc_toInt F (by omega)), Modulator.steps_n,
      ih (by omega), scanBits_succ, List.foldl_append, List.foldl_cons, List.foldl_nil]

/-- Flushing the modulator flushes the fold, where the accumulator is an `i32`. -/
theorem Modulator.flush_out_toInt (m : Modulator) (h : (BitVec.ofInt 32 m.acc).toInt = m.acc) :
    m.flush.out.map BitVec.toInt = flushPulse m.folded := by
  by_cases h0 : m.acc = 0
  · simp [Modulator.flush, flushPulse, Modulator.folded, h0]
  · simp [Modulator.flush, flushPulse, Modulator.folded, h0, h]

/-- The pulse sequence of a frame is the flushed fold over its 96 bits (R140). -/
theorem modulated_toInt (F : Frame) :
    (modulated F).map BitVec.toInt = flushPulse ((scanBits F 96).foldl foldPulse (0, [])) := by
  have hk : Config.frameBits ≤ 96 := le_rfl
  rw [modulated]
  unfold Modulator.run
  rw [Modulator.flush_out_toInt _ (Modulator.steps_acc_toInt F hk), Modulator.folded_steps F hk, Config.frameBits]

/-- The bits of a frame in scan order, each read from the byte it stands in (R42). -/
theorem scanBits_eq_map_getLsbD (F : Frame) :
    scanBits F 96 = (List.range 96).map fun n => F[n / 8]!.getLsbD (7 - n % 8) := by
  refine List.map_congr_left fun n hn => ?_
  have hbyte : n / 8 < 12 := by have := List.mem_range.1 hn; omega
  rw [frameBit_eq_getLsbD F n hbyte, getElem!_pos F (n / 8) hbyte]

/-- Settles O11: the answer is `modulated F`, the fold of R140 by `modulated_toInt`. -/
theorem modulateResult : Obligations.ModulateResult := by
  refine ⟨fun r => decode_of_op_modulate, fun F s => ⟨modulated F, Modulator.run F, exec_modulate F s, ?_⟩,
    exec_modulate_refused⟩
  rw [← scanBits_eq_map_getLsbD]
  exact modulated_toInt F

/-! ## Signs and sums of the entries (R142) -/

/-- The first entry of a sequence expands to its run. -/
theorem expandRuns_runEntry_cons {b : Bool} {r : Nat} (p : PulseSeq) (h : r ≤ 96) (h1 : 1 ≤ r) :
    expandRuns (runEntry b r :: p) = List.replicate r b ++ expandRuns p := by
  rw [← entryBits_runEntry b r h h1]
  rfl

/-- An entry is positive exactly when it stands for a run of ones. -/
theorem runEntry_pos_iff {b : Bool} {r : Nat} (h : r ≤ 96) (h1 : 1 ≤ r) : 0 < (runEntry b r).toInt ↔ b = true := by
  rw [← Int.sign_eq_one_iff_pos, runEntry_sign b r h h1]
  cases b <;> decide

/-- Neighbouring entries of an alternating sequence differ in sign. -/
theorem sign_ne_of_alternates {p : PulseSeq} (h : alternates p = true) {k : Nat} {x y : I32} (hx : p[k]? = some x)
    (hy : p[k + 1]? = some y) : x.toInt.sign ≠ y.toInt.sign := by
  induction p using alternates.induct generalizing k with
  | case1 => simp at hx
  | case2 a => simp at hy
  | case3 a b rest ih =>
    simp only [alternates, Bool.and_eq_true, decide_eq_true_eq] at h
    obtain ⟨hab, hrest⟩ := h
    cases k with
    | zero =>
      obtain rfl : a = x := Option.some.inj hx
      obtain rfl : b = y := Option.some.inj hy
      exact hab
    | succ k => exact ih hrest hx hy

/-- Of two numbers that are not 0 and differ in sign, one is positive and one is negative. -/
theorem sign_eq_neg_of_ne {x y : Int} (hx : x ≠ 0) (hy : y ≠ 0) (h : x.sign ≠ y.sign) : x.sign = -y.sign := by
  rcases hx.lt_or_gt with hneg | hpos
  · have hsign := Int.sign_eq_neg_one_of_neg hneg
    have hy0 : 0 < y := hy.lt_or_gt.resolve_left fun hlt => h (hsign.trans (Int.sign_eq_neg_one_of_neg hlt).symm)
    rw [hsign, Int.sign_eq_one_of_pos hy0]
  · have hsign := Int.sign_eq_one_of_pos hpos
    have hy0 : y < 0 := hy.lt_or_gt.resolve_right fun hgt => h (hsign.trans (Int.sign_eq_one_of_pos hgt).symm)
    rw [hsign, Int.sign_eq_neg_one_of_neg hy0, neg_neg]

/-- The entries of one sign sum to the pulses of the bits they expand to (R142). -/
theorem sum_filter_sign (b : Bool) (p : PulseSeq) (h : ∀ e ∈ p, ∃ c r, 1 ≤ r ∧ r ≤ 96 ∧ e = runEntry c r) :
    ((p.map BitVec.toInt).filter fun v => v.sign = if b then 1 else -1).sum =
      bitPulse b * ((expandRuns p).count b : Int) := by
  induction p with
  | nil => simp [expandRuns]
  | cons e p ih =>
    obtain ⟨c, r, h1, hr, rfl⟩ := h e List.mem_cons_self
    have hsign := runEntry_sign c r hr h1
    rw [List.map_cons, expandRuns_runEntry_cons p hr h1, List.count_append, List.count_replicate, Nat.cast_add, mul_add,
      ← ih fun e he => h e (List.mem_cons_of_mem _ he)]
    by_cases hc : c = b
    · subst hc
      rw [List.filter_cons_of_pos (by rw [hsign, decide_eq_true_iff]), List.sum_cons, runEntry_toInt c r hr]
      simp [mul_comm]
    · have hother : (if c then 1 else -1 : Int) ≠ if b then 1 else -1 := by
        revert hc
        cases b <;> cases c <;> decide
      rw [List.filter_cons_of_neg (by rwa [hsign, decide_eq_true_iff])]
      simp [hc]

/-- The first entry is a mark exactly when the first bit is 1 (R142 f). -/
theorem head_modulated_pos_iff {F : Frame} {e : I32} (h : (modulated F)[0]? = some e) :
    0 < e.toInt ↔ F[0].getLsbD 7 = true := by
  obtain ⟨b, r, h1, hr, rfl⟩ := exists_runEntry_of_mem_modulated (List.mem_of_getElem? h)
  obtain ⟨p, hp⟩ : ∃ p, modulated F = runEntry b r :: p := by
    rwa [← List.head?_eq_getElem?, List.head?_eq_some_iff] at h
  have hbits : (List.replicate r b ++ expandRuns p).head? = (scanBits F 96).head? := by
    rw [← expandRuns_modulated, hp, expandRuns_runEntry_cons p hr h1]
  have hfirst : b = frameBit F 0 := by
    obtain ⟨r, rfl⟩ := Nat.exists_eq_add_of_le' h1
    exact Option.some.inj hbits
  rw [runEntry_pos_iff hr h1, hfirst, frameBit_eq_getLsbD F 0 (by decide)]

/-- Settles O12: the entries are the run entries of the bits, alternating in sign, and the sums are those of the
expansion. -/
theorem modulateLaws : Obligations.ModulateLaws := by
  intro F s
  obtain ⟨t, hexec, hrsp⟩ := exec_modulate_answers F s
  obtain ⟨hne, halt, hlen1, hlen96⟩ := legalPulses_modulated F
  have hruns : ∀ e ∈ modulated F, ∃ b r, 1 ≤ r ∧ r ≤ 96 ∧ e = runEntry b r :=
    fun _ => exists_runEntry_of_mem_modulated
  have hexp : expandRuns (modulated F) = (List.range 96).map (frameBit F) := expandRuns_modulated F
  refine ⟨t, modulated F, hexec, hrsp, hne, fun k x y hx hy => ?_, fun e he => ?_, hexp, length_modulated F, hlen1,
    hlen96, ?_, ?_, fun e => head_modulated_pos_iff⟩
  · exact sign_eq_neg_of_ne (hne x (List.mem_of_getElem? hx)) (hne y (List.mem_of_getElem? hy))
      (sign_ne_of_alternates halt hx hy)
  · obtain ⟨b, r, h1, hr, rfl⟩ := hruns e he
    refine ⟨r, h1, ?_⟩
    rw [runEntry_toInt b r hr, mul_comm]
    cases b
    · exact .inr rfl
    · exact .inl rfl
  · rw [← hexp]
    simpa [bitPulse, Config.markUs, Int.sign_eq_one_iff_pos] using sum_filter_sign true (modulated F) hruns
  · rw [← hexp]
    simpa [bitPulse, Config.spaceUs, Int.sign_eq_neg_one_iff_neg] using sum_filter_sign false (modulated F) hruns

/-! ## The pulses of a built frame's first 48 bits (R144) -/

/-- The fold only adds to its output. -/
theorem prefix_flushPulse_foldl (bits : List Bool) (x : Int × List Int) :
    x.2 <+: flushPulse (bits.foldl foldPulse x) := by
  induction bits generalizing x with
  | nil =>
    by_cases h : x.1 ≠ 0
    · exact ⟨[x.1], by simp [flushPulse, h]⟩
    · exact ⟨[], by simp [flushPulse, h]⟩
  | cons b bits ih =>
    by_cases h : x.1 = 0 ∨ x.1.sign = (bitPulse b).sign
    · rw [List.foldl_cons, foldPulse_of_join h]
      exact ih (x.1 + bitPulse b, x.2)
    · refine List.IsPrefix.trans ?_ (ih (foldPulse x b))
      rw [foldPulse_of_end h]
      exact List.prefix_append _ _

/-- A space in the accumulator is a part of the next entry, which can only be a longer space. -/
theorem exists_flushPulse_foldl_eq (bits : List Bool) {x : Int × List Int} (h : x.1 < 0) :
    ∃ (e : Int) (rest : List Int), flushPulse (bits.foldl foldPulse x) = x.2 ++ e :: rest ∧ e ≤ x.1 := by
  induction bits generalizing x with
  | nil => exact ⟨x.1, [], by simp [flushPulse, h.ne], le_rfl⟩
  | cons b bits ih =>
    have hsign : x.1.sign = -1 := Int.sign_eq_neg_one_of_neg h
    cases b with
    | false =>
      have hturn : foldPulse x false = (x.1 + -104, x.2) := foldPulse_of_join (.inr hsign)
      obtain ⟨e, rest, heq, he⟩ := ih (x := (x.1 + -104, x.2)) (by simp only; omega)
      exact ⟨e, rest, by rw [List.foldl_cons, hturn, heq], by simp only at he; omega⟩
    | true =>
      have hturn : foldPulse x true = (105, x.2 ++ [x.1]) :=
        foldPulse_of_end (by rw [hsign]; exact not_or_intro h.ne (by decide))
      obtain ⟨rest, heq⟩ := prefix_flushPulse_foldl bits (105, x.2 ++ [x.1])
      exact ⟨x.1, rest, by rw [List.foldl_cons, hturn, ← heq]; simp, le_rfl⟩

/-- The 41 entries that SYNC and PREAMBLE give (R144). -/
def headerPulses : List Int :=
  (List.range 31).map (fun k => if k % 2 = 0 then 105 else -104) ++
    [-312, 105, -104, 210, -104, 315, -104, 105, -104, 105]

/-- SYNC and PREAMBLE are the same in every built frame (R60). -/
theorem scanBits_builtFrame_header (a : BitVec 16) (c m : Byte) :
    scanBits (builtFrame a c m) 48 = scanBits (builtFrame 0 0 0) 48 := by
  have hbyte : ∀ k < 6, frameByte (builtFrame a c m) k = frameByte (builtFrame 0 0 0) k := by
    intro k hk
    interval_cases k <;> rfl
  refine List.map_congr_left fun n hn => ?_
  rw [frameBit, frameBit, hbyte (n / 8) (by have := List.mem_range.1 hn; omega)]

/-- The fold over SYNC and PREAMBLE ends with the two zeros at the end of PREAMBLE in the accumulator. -/
theorem foldl_foldPulse_header (a : BitVec 16) (c m : Byte) :
    (scanBits (builtFrame a c m) 48).foldl foldPulse (0, []) = (-208, headerPulses) := by
  rw [scanBits_builtFrame_header]
  decide +kernel

/-- The bits of a frame after the first `j`. -/
theorem scanBits_add (F : Frame) (j k : Nat) :
    scanBits F (j + k) = scanBits F j ++ (List.range k).map fun n => frameBit F (j + n) := by
  simp [scanBits, List.range_add, Function.comp_def]

/-- The pulse sequence of a built frame starts with the entries of its header, and a space of at least two zeros comes
next (R144). -/
theorem modulated_builtFrame (a : BitVec 16) (c m : Byte) :
    ∃ (e : Int) (rest : List Int), (modulated (builtFrame a c m)).map BitVec.toInt = headerPulses ++ e :: rest ∧
      e ≤ -208 := by
  rw [modulated_toInt, scanBits_add _ 48 48, List.foldl_append, foldl_foldPulse_header]
  exact exists_flushPulse_foldl_eq _ (by decide)

/-- Settles O14: the parts of `headerPulses`, and the entry after it. -/
theorem builtFramePulsePrefix : Obligations.BuiltFramePulsePrefix := by
  intro a c m s
  obtain ⟨t, hexec, hrsp⟩ := exec_modulate_answers (builtFrame a c m) s
  obtain ⟨v, rest, hout, hv⟩ := modulated_builtFrame a c m
  have hlast : ((modulated (builtFrame a c m))[41]?).map BitVec.toInt = some v := by
    rw [← List.getElem?_map, hout]; rfl
  obtain ⟨e, he, hev⟩ := Option.map_eq_some_iff.1 hlast
  refine ⟨builtFrame a c m, t, _, modulated (builtFrame a c m), e, exec_buildFrame a c m s, rfl, hexec, hrsp, ?_, ?_, he,
    hev.le.trans hv⟩
  · rw [List.map_take, hout]; rfl
  · rw [List.map_drop, List.map_take, hout]; rfl

/-! ## What a step adds to the observations (R29, R141, R231) -/

/-- Only a SEND has handoffs, so only a SEND adds to the sink log (R141). -/
theorem exists_send_of_logAfter_ne {log : List SinkRun} {i : Instr} {f : PulseSeq × Nat → PulseSeq × Nat}
    (h : logAfter log ((handoffOf i).map f) ≠ log) : ∃ a c m k, i = .send a c m k := by
  cases i with
  | send a c m k => exact ⟨a, c, m, k, rfl⟩
  | _ => exact absurd rfl h

/-- Further handoffs come after those already made. -/
theorem sinkHandoffs_prefix_logAfter (log : List SinkRun) (h : Option (PulseSeq × Nat)) :
    sinkHandoffs log <+: sinkHandoffs (logAfter log h) := by
  rw [sinkHandoffs_logAfter]
  exact List.prefix_append _ _

/-- A host input leaves the history, and of the sink log it changes something only for a SEND it abandons (R231). -/
theorem deliver_observed (s : State) (e : HostInput) :
    (s.deliver e).history = s.history ∧ sinkHandoffs s.sinkLog <+: sinkHandoffs (s.deliver e).sinkLog ∧
      ((s.deliver e).sinkLog ≠ s.sinkLog →
        ∃ r a c m k, decode r = .send a c m k ∧ e = .requestThenReset r) := by
  cases e with
  | request r => exact ⟨rfl, List.prefix_rfl, fun h => absurd rfl h⟩
  | reset => exact ⟨rfl, List.prefix_rfl, fun h => absurd rfl h⟩
  | requestThenReset r =>
    obtain ⟨k, n, habandon, -⟩ := abandon_spec s r
    rw [State.deliver, habandon]
    refine ⟨rfl, sinkHandoffs_prefix_logAfter _ _, fun h => ?_⟩
    obtain ⟨a, c, m, k, hsend⟩ := exists_send_of_logAfter_ne h
    exact ⟨r, a, c, m, k, hsend, rfl⟩

/-- Settles O38: a step carries out the pending request, or takes a host input, or waits. -/
theorem onlySendReachesSink : Obligations.OnlySendReachesSink := by
  intro s t hstep
  cases hreq : s.req with
  | some r =>
    obtain ⟨u, hu, -, -, hhist, hlog, -⟩ := step_of_request s r hreq
    obtain rfl := Host.Outcome.next.inj (hu.symm.trans hstep)
    rw [hhist, hlog]
    refine ⟨List.prefix_append _ _, sinkHandoffs_prefix_logAfter _ _, fun h => ?_⟩
    obtain ⟨a, c, m, k, hsend⟩ := exists_send_of_logAfter_ne (f := id) (by rwa [Option.map_id_apply])
    exact ⟨r, a, c, m, k, hsend, .inl rfl⟩
  | none =>
    rcases step_of_no_request s hreq with ⟨-, hwait⟩ | ⟨e, rest, hin, htake⟩
    · obtain rfl := Host.Outcome.next.inj (hwait.symm.trans hstep)
      exact ⟨List.prefix_rfl, List.prefix_rfl, fun h => absurd rfl h⟩
    · obtain rfl := Host.Outcome.next.inj (htake.symm.trans hstep)
      obtain ⟨hhist, hhand, hsend⟩ := deliver_observed { s with inputs := rest } e
      refine ⟨by rw [hhist], hhand, fun h => ?_⟩
      obtain ⟨r, a, c, m, k, hdecode, rfl⟩ := hsend h
      exact ⟨r, a, c, m, k, hdecode, .inr ⟨rfl, rest, hin⟩⟩

end Sys2Proof.Machine

/-! # Proofs: the pulse demodulator (44_pulse_demodulator.md) -/

namespace Sys2Proof.Machine

open Sys2Proof

/-! ## Which pairs are which bit (R162, R164, R170) -/

/-- The box of the bit-0 pairs (R164). -/
theorem classify_eq_zero_iff_bounds (p : Pair) : classify p = some false ↔
    90 ≤ p.mark.toInt ∧ p.mark.toInt ≤ 120 ∧ 89 ≤ p.space.toInt ∧ p.space.toInt ≤ 119 := by
  rw [classify_eq_zero_iff, matchesBit0_iff, and_assoc]

/-- The bit-0 template is tested first, so of the bit-1 box only the two edges outside the bit-0 box are left (R163, R164). -/
theorem classify_eq_one_iff_bounds (p : Pair) : classify p = some true ↔
    (p.mark.toInt = 89 ∧ 90 ≤ p.space.toInt ∧ p.space.toInt ≤ 120) ∨
    (89 ≤ p.mark.toInt ∧ p.mark.toInt ≤ 119 ∧ p.space.toInt = 120) := by
  rw [classify_eq_one_iff, ← Bool.not_eq_true, matchesBit0_iff, matchesBit1_iff]
  omega

/-- A duration below a window is not in it. -/
theorem inWindow_eq_false_of_lt {d : I32} {nominal : Int} (h : d.toInt < nominal - 15) : inWindow d nominal = false := by
  rw [← Bool.not_eq_true, inWindow_iff]
  omega

/-- A negative duration is below both windows (R170). -/
theorem inWindow_eq_false_of_neg {d : I32} (h : d.toInt < 0) :
    inWindow d Config.markUs = false ∧ inWindow d Config.spaceUs = false :=
  ⟨inWindow_eq_false_of_lt (h.trans (by decide)), inWindow_eq_false_of_lt (h.trans (by decide))⟩

/-- A pair with a negative duration matches neither template (R170). -/
theorem classify_eq_none_of_neg {p : Pair} (h : p.mark.toInt < 0 ∨ p.space.toInt < 0) : classify p = none := by
  rw [classify_eq_none_iff]
  rcases h with h | h <;> simp [matchesBit0, matchesBit1, inWindow_eq_false_of_neg h]

/-! ## The bits of a list of pairs -/

theorem pairBit_eq_some_iff {pairs : List Pair} {n : Nat} {b : Bool} :
    pairBit pairs n = some b ↔ ∃ x, pairs[n]? = some x ∧ classify x = some b :=
  Option.bind_eq_some_iff

theorem pairBit_of_getElem? {pairs : List Pair} {n : Nat} {x : Pair} (h : pairs[n]? = some x) :
    pairBit pairs n = classify x := by
  rw [pairBit, h, Option.bind_some]

/-- A pair of the list that classifies has a bit. -/
theorem isSome_pairBit {pairs : List Pair} {n : Nat} (hn : n < pairs.length)
    (h : ∀ x, pairs[n]? = some x → classify x ≠ none) : (pairBit pairs n).isSome := by
  have hget := List.getElem?_eq_getElem hn
  rw [pairBit_of_getElem? hget]
  exact Option.isSome_iff_ne_none.2 (h _ hget)

/-! ## How a decode ends (R168) -/

/-- The first pair that matches neither template ends the decode with its index (R168, R169). -/
theorem demodulated_of_first_failure {pairs : List Pair} {i : Nat} {q : Pair} (hi : i < 96) (hq : pairs[i]? = some q)
    (hfail : classify q = none) (hbefore : ∀ j < i, ∀ x, pairs[j]? = some x → classify x ≠ none) :
    demodulated pairs = .error (.unexpectedTiming i) := by
  obtain ⟨hlen, -⟩ := List.getElem?_eq_some_iff.1 hq
  have hnone : ¬ (pairBit pairs i).isSome := by simp [pairBit_of_getElem? hq, hfail]
  rcases demodulated_cases pairs with ⟨k, -, -, hsome, hk, hend⟩ | ⟨-, hsome, -⟩ | ⟨-, F, hF, -⟩
  · rcases lt_trichotomy k i with hlt | rfl | hgt
    · have hbit := isSome_pairBit (hlt.trans hlen) (hbefore k hlt)
      simp [hk] at hbit
    · exact hend
    · exact absurd (hsome i hgt) hnone
  · exact absurd (hsome i hlen) hnone
  · exact absurd (by simp [hF i hi]) hnone

/-- Fewer than 96 pairs that all classify end the decode as truncated (R168). -/
theorem demodulated_of_short {pairs : List Pair} (hlen : pairs.length < 96) (h : ∀ x ∈ pairs, classify x ≠ none) :
    demodulated pairs = .error .truncated := by
  rcases demodulated_cases pairs with ⟨k, -, hk, -, hnone, -⟩ | ⟨-, -, hend⟩ | ⟨hlong, -⟩
  · have hbit := isSome_pairBit hk fun x hx => h x (List.mem_of_getElem? hx)
    simp [hnone] at hbit
  · exact hend
  · exact absurd hlen hlong.not_gt

/-- DEMODULATE answers the response of what its pairs decode to, and changes nothing else but the local state of its two
units (R160, R204). -/
theorem exec_demodulate_eq (pairs : List Pair) (s : State) : ∃ (d : Demodulator) (c : ChecksumEngine),
    exec (.demodulate pairs) s = .next { s with
      rsp := some (demodulateResponse (demodulated pairs)), demodulator := d, checksumEngine := c } := by
  obtain ⟨hreq, -, hmod, hhist, hlog, hin, hfree, -⟩ := runDemodulator_frame s pairs
  refine ⟨(s.runDemodulator pairs).2.demodulator, (s.runDemodulator pairs).2.checksumEngine, ?_⟩
  rw [exec_demodulate, ← hreq, ← hmod, ← hhist, ← hlog, ← hin, ← hfree]
  rfl

/-- The first pair that matches neither template is answered with its index, whatever the state. -/
theorem exec_demodulate_of_first_failure {pairs : List Pair} {i : Nat} {q : Pair} (s : State) (hi : i < 96)
    (hq : pairs[i]? = some q) (hfail : classify q = none)
    (hbefore : ∀ j < i, ∀ x, pairs[j]? = some x → classify x ≠ none) :
    ∃ t, exec (.demodulate pairs) s = .next t ∧
      t.rsp = some { status := .unexpectedTiming, payload := .index (BitVec.ofNat 7 i) } :=
  ⟨_, exec_demodulate pairs s, by rw [State.respond_rsp, demodulated_of_first_failure hi hq hfail hbefore]; rfl⟩

/-! ## Pairs the loop does not reach (R165) -/

/-- The loop reads no pair beyond those it has turns for. -/
theorem Demodulator.extract_append (pairs extra : List Pair) (k : Nat) (d : Demodulator)
    (h : d.i + k ≤ pairs.length) : Demodulator.extract (pairs ++ extra) k d = Demodulator.extract pairs k d := by
  induction k generalizing d with
  | zero => rfl
  | succ k ih =>
    have hread : (pairs ++ extra)[d.i]? = pairs[d.i]? := List.getElem?_append_left (by omega)
    simp only [Demodulator.extract, hread]
    split
    · rfl
    · split
      · rfl
      · exact ih _ (by simp only; omega)

/-- A decode of at least 96 pairs is the same with any further pairs, as is the state it leaves (R165). -/
theorem State.runDemodulator_append {pairs : List Pair} (extra : List Pair) (s : State) (h : 96 ≤ pairs.length) :
    s.runDemodulator (pairs ++ extra) = s.runDemodulator pairs := by
  have hrun : s.demodulator.run (pairs ++ extra) = s.demodulator.run pairs :=
    Demodulator.extract_append pairs extra 96 s.demodulator.begin ((Nat.zero_add 96).trans_le h)
  rw [State.runDemodulator, hrun, State.runDemodulator]

theorem demodulated_append {pairs : List Pair} (extra : List Pair) (h : 96 ≤ pairs.length) :
    demodulated (pairs ++ extra) = demodulated pairs := by
  rw [demodulated, State.runDemodulator_append extra _ h, demodulated]

/-! ## The all-zero frame (R171, R172) -/

/-- Twelve bytes 0x00. -/
def zeroFrame : Frame := Vector.replicate 12 0x00

theorem frameBit_zeroFrame {n : Nat} (hn : n < 96) : frameBit zeroFrame n = false := by
  have hbyte : n / 8 < 12 := by omega
  rw [frameBit_eq_getLsbD _ n hbyte]
  simp [zeroFrame]

/-- 96 pairs of bit 0 decode to the all-zero frame, whose checksum holds: the sum of its bytes is 0 (R171). -/
theorem demodulated_of_zero_bits {pairs : List Pair} (h : ∀ n < 96, pairBit pairs n = some false) :
    demodulated pairs = .ok zeroFrame := by
  have hcheck : checksum (frameSlice zeroFrame 4 10) = zeroFrame[11] := by decide
  rw [demodulated_of_bits pairs zeroFrame fun n hn => by rw [h n hn, frameBit_zeroFrame hn], if_pos hcheck]

/-- DEMODULATE answers 96 pairs of bit 0 with the all-zero frame and status OK (R171). -/
theorem exec_demodulate_of_zero_bits {pairs : List Pair} (s : State) (h : ∀ n < 96, pairBit pairs n = some false) :
    ∃ t, exec (.demodulate pairs) s = .next t ∧
      t.rsp = some { status := .ok, payload := .decoded zeroFrame 0x00 0x00 } :=
  ⟨_, exec_demodulate pairs s, by rw [State.respond_rsp, demodulated_of_zero_bits h]; rfl⟩

/-- Both nominal pairs lie in the bit-0 box, so no nominal pair writes a 1 (R164, R172). -/
theorem pairBit_nominalPairs (F : Frame) {n : Nat} (hn : n < 96) : pairBit (nominalPairs F) n = some false := by
  have hone : classify { mark := 104, space := 105 } = some false := by decide
  have hzero : classify { mark := 105, space := 104 } = some false := by decide
  have hget : (nominalPairs F)[n]? =
      some (if frameBit F n then { mark := 104, space := 105 } else { mark := 105, space := 104 }) := by
    simp [nominalPairs, Config.frameBits, hn]
  rw [pairBit_of_getElem? hget]
  cases frameBit F n
  · exact hzero
  · exact hone

/-- A built frame starts with a sync byte 0xAA (R60, R172). -/
theorem zeroFrame_ne_builtFrame (a : BitVec 16) (c m : Byte) : zeroFrame ≠ builtFrame a c m := by
  intro h
  have hsync : (0x00 : Byte) = 0xAA := congrArg (fun F : Frame => F[0]) h
  exact absurd hsync (by decide)

/-! ## The obligations -/

/-- Settles O15: `inWindow_iff` at each nominal value. -/
theorem windowBounds : Obligations.WindowBounds :=
  ⟨inWindow_iff, fun d => inWindow_iff d Config.markUs, fun d => inWindow_iff d Config.spaceUs⟩

/-- Settles O16: the boxes of the two bits, and a pair of neither as the first failure of a list of one pair. -/
theorem pairClassification : Obligations.PairClassification :=
  ⟨classify_eq_one_iff_bounds, classify_eq_zero_iff_bounds,
    fun _ s h => exec_demodulate_of_first_failure s (by decide) rfl h nofun, by decide⟩

/-- Settles O17: the response is that of `demodulated`, which each of the three clauses fixes. -/
theorem demodulateResult : Obligations.DemodulateResult := by
  refine ⟨fun _ => decode_of_op_demodulate, fun pairs s => ?_⟩
  obtain ⟨d, c, hexec⟩ := exec_demodulate_eq pairs s
  refine ⟨_, d, c, hexec, fun i q hi hq hfail hbefore => ?_, fun hlen hall => ?_, fun F hF => ?_⟩
  · rw [demodulated_of_first_failure hi hq hfail hbefore]
    rfl
  · rw [demodulated_of_short hlen hall]
    rfl
  · rw [demodulated_of_bits pairs F fun n hn => pairBit_eq_some_iff.2 (hF n hn), frameSlice_body]
    refine ⟨fun hcheck => ?_, fun hcheck => ?_⟩
    · rw [if_pos hcheck]
      rfl
    · rw [if_neg hcheck]
      rfl

/-- Settles O18: both operations answer from one run of the demodulator, which the further pairs do not change. -/
theorem pairsBeyond96Ignored : Obligations.PairsBeyond96Ignored := by
  intro pairs extra s hlen
  have hrun := State.runDemodulator_append extra s hlen.ge
  have hresult := demodulated_append extra hlen.ge
  refine ⟨?_, ?_⟩
  · rw [exec_demodulate, exec_demodulate, hrun, hresult]
  · rw [exec_onSignal, exec_onSignal, hrun, hresult]

/-- Settles O19: a pair with a negative duration matches neither template, so it is the first failure. -/
theorem negativeDurationRejected : Obligations.NegativeDurationRejected :=
  ⟨fun _ => inWindow_eq_false_of_neg, fun _ s _ _ hi hq hneg hbefore =>
    exec_demodulate_of_first_failure s hi hq (classify_eq_none_of_neg hneg) hbefore⟩

/-- Settles O20: each pair of the box writes a 0. -/
theorem allZeroFalsePositive : Obligations.AllZeroFalsePositive := by
  intro pairs s hbox
  obtain ⟨t, hexec, hrsp⟩ := exec_demodulate_of_zero_bits (pairs := pairs) s fun n hn => by
    obtain ⟨x, hx, hbounds⟩ := hbox n hn
    exact pairBit_eq_some_iff.2 ⟨x, hx, (classify_eq_zero_iff_bounds x).2 hbounds⟩
  exact ⟨t, zeroFrame, hexec, hrsp, by decide⟩

/-- Settles O21: the nominal pairs decode to the all-zero frame, which is no built frame. -/
theorem nominalRoundTripFails : Obligations.NominalRoundTripFails := by
  intro a c m s
  obtain ⟨t, hexec, hrsp⟩ := exec_demodulate_of_zero_bits s fun _ => pairBit_nominalPairs (builtFrame a c m)
  exact ⟨builtFrame a c m, zeroFrame, t, _, 0x00, 0x00, exec_buildFrame a c m s, rfl, hexec, hrsp, rfl, rfl,
    zeroFrame_ne_builtFrame a c m, and_congr eq_comm eq_comm⟩

end Sys2Proof.Machine

/-! # Proofs: the logical API boundary (45_logical_api.md) -/

namespace Sys2Proof.Machine

open Sys2Proof

/-! ## The response of ON_SIGNAL from the one of DEMODULATE (R192) -/

/-- DEMODULATE answers OK only with a decoded frame, since each decode error has a status of its own (R160, R200). -/
theorem exists_decoded_of_status_demodulateResponse {x : Except DecodeError Frame}
    (h : (demodulateResponse x).status = .ok) :
    ∃ F c m, demodulateResponse x = { status := .ok, payload := .decoded F c m } := by
  cases x with
  | ok F => exact ⟨F, F[9], F[10], rfl⟩
  | error e => cases e <;> nomatch h

/-- A decoded frame becomes its command and its mode (R192). -/
theorem onSignalResponse_decoded (F : Frame) (c m : Byte) :
    onSignalResponse { status := .ok, payload := .decoded F c m } = { status := .ok, payload := .signal c m } := rfl

/-- Every status but OK becomes `some = false` (R192). -/
theorem onSignalResponse_of_status_ne_ok {r : Response} (h : r.status ≠ .ok) :
    onSignalResponse r = { status := .ok, payload := .noSignal } := by
  unfold onSignalResponse
  split
  case h_1 hok _ => exact absurd hok h
  case h_2 => rfl

/-! ## The obligations -/

/-- Settles O23: SEND runs the builder and the modulator that BUILD_FRAME and MODULATE run, and its one run of handoffs
appends `repeat + 1` copies to those already made. -/
theorem sendResult : Obligations.SendResult := by
  refine ⟨fun _ => decode_of_op_send, fun a c m k s => ?_⟩
  obtain ⟨u, hmodulate, hpulses⟩ := exec_modulate_answers (builtFrame a c m) s
  exact ⟨builtFrame a c m, modulated (builtFrame a c m),
    appendRun (modulated (builtFrame a c m)) (k.toNat + 1) s.sinkLog,
    ChecksumEngine.addAll (frameBody a c m), Modulator.run (builtFrame a c m), _, u,
    exec_buildFrame a c m s, rfl, hmodulate, hpulses, exec_send a c m k s, sinkHandoffs_appendRun _ _ _⟩

/-- Settles O24: both operations end one run of the demodulator, ON_SIGNAL with `onSignalResponse` of DEMODULATE's
response. -/
theorem onSignalResult : Obligations.OnSignalResult := by
  refine ⟨fun _ => decode_of_op_onSignal, fun pairs s => ?_⟩
  refine ⟨_, demodulateResponse (demodulated pairs), onSignalResponse (demodulateResponse (demodulated pairs)),
    exec_demodulate pairs s, rfl, exec_onSignal pairs s, fun F c m hdecoded => ?_, onSignalResponse_of_status_ne_ok,
    exists_decoded_of_status_demodulateResponse⟩
  rw [hdecoded, onSignalResponse_decoded]

end Sys2Proof.Machine

/-! # Proofs: errors and refusals (60_exceptions.md) -/

namespace Sys2Proof.Machine

open Sys2Proof

/-- Of the responses R71 allows a well-formed operation, only those of DEMODULATE have a status other than OK: the length
R66 asks for rules REFUSED out (R201). -/
theorem status_eq_ok_of_admits {i : Instr} {r : Response} (hr : admits i r) (hw : i.wellFormed = true)
    (hd : ∀ pairs, i ≠ .demodulate pairs) : r.status = .ok := by
  cases i with
  | buildFrame a c m => exact congrArg Response.status hr
  | checksum bytes =>
    rcases hr with ⟨-, rfl⟩ | ⟨hlen, -⟩
    · rfl
    · exact absurd (eq_of_beq hw) hlen
  | verify bytes =>
    rcases hr with ⟨-, _, rfl⟩ | ⟨hlen, -⟩
    · rfl
    · exact absurd (eq_of_beq hw) hlen
  | modulate bytes =>
    rcases hr with ⟨-, _, -, rfl⟩ | ⟨hlen, -⟩
    · rfl
    · exact absurd (eq_of_beq hw) hlen
  | demodulate pairs => exact absurd rfl (hd pairs)
  | send a c m k => exact congrArg Response.status hr
  | onSignal pairs => rcases hr with rfl | ⟨_, _, rfl⟩ <;> rfl
  | reserved => nomatch hw

/-! ## The obligations -/

/-- Settles O28: the operation answers a response that R71 allows it, and that one is OK. -/
theorem encodingRaisesNoError : Obligations.EncodingRaisesNoError := by
  intro i s hw hd
  obtain ⟨t, r, hexec, hrsp, hadmits⟩ := responsePayloadsLegal i s
  exact ⟨t, r, hexec, hrsp, status_eq_ok_of_admits hadmits hw hd⟩

/-- Settles O36: a pending request is carried out to a next state, and with none pending the step takes an input or
waits. -/
theorem stepNeverStops : Obligations.StepNeverStops := by
  intro s
  cases hreq : s.req with
  | some r =>
    obtain ⟨t, hstep, -⟩ := step_of_request s r hreq
    exact ⟨t, hstep⟩
  | none =>
    rcases step_of_no_request s hreq with ⟨-, hwaits⟩ | ⟨_, _, -, htakes⟩
    · exact ⟨s, hwaits⟩
    · exact ⟨_, htakes⟩

end Sys2Proof.Machine

/-! # Proofs: reset, idle steps and request sequences (70_reset_and_hazards.md) -/

namespace Sys2Proof.Machine

open Sys2Proof

/-- With neither a request pending nor a host input to come, the step waits (R230, log 1). -/
theorem step_of_idle {s : State} (hreq : s.req = none) (hin : s.inputs = []) : step s = .next s := by
  rcases step_of_no_request s hreq with ⟨-, hwaits⟩ | ⟨e, rest, hcons, -⟩
  · exact hwaits
  · exact absurd (hcons.symm.trans hin) (List.cons_ne_nil e rest)

/-- Only a SEND has handoffs (R141). -/
theorem handoffOf_eq_none {i : Instr} (h : ∀ a c m k, i ≠ .send a c m k) : handoffOf i = none := by
  cases i with
  | send a c m k => exact absurd rfl (h a c m k)
  | _ => rfl

/-! ## The obligations -/

/-- Settles O35: whatever number of handoffs was made, it is at most that of the whole operation (`abandon_spec`), and
only a SEND has handoffs. -/
theorem resetAbandonsOperation : Obligations.ResetAbandonsOperation := by
  intro s r rest hreq hin
  obtain ⟨j, n, habandon, hbound⟩ := abandon_spec { s with inputs := rest } r
  refine ⟨_, (step_of_input hreq hin).trans (congrArg Host.Outcome.next habandon), rfl, rfl, rfl, rfl,
    fun a c m k hsend => ⟨n, ?_, ?_⟩, fun hother => ?_⟩
  · exact hbound (modulated (builtFrame a c m), k.toNat + 1) (by rw [hsend, handoffOf])
  · simp [hsend, handoffOf, logAfter]
  · simp [handoffOf_eq_none hother, logAfter]

/-- Settles O42: the responses and the handoffs are those each request alone gives, by induction on the requests
(`run_of_request_inputs`). -/
theorem requestSequenceEndState : Obligations.RequestSequenceEndState :=
  ⟨fun r => responseOf (decode r), handoffsOf, fun requests _ hreq => run_withProgram requests hreq⟩

/-- Settles O33: an idle step waits, and one with a request to come writes it on REQ. -/
theorem stepWaitsOrTakesInput : Obligations.StepWaitsOrTakesInput :=
  fun _ hreq => ⟨step_of_idle hreq, fun _ _ hin => step_of_input hreq hin⟩

end Sys2Proof.Machine

/-! # Proofs: captures that write a 1 as (89, 104) (44_pulse_demodulator.md, 95_test_vectors.md section 2) -/

namespace Sys2Proof.Machine

open Sys2Proof

/-- The checksum of a frame holds exactly when its bytes 4 to 11 sum to a multiple of 256 (R124). -/
theorem checksumHolds_iff_byteSum (F : Frame) : checksumHolds F ↔ byteSum (frameSlice F 4 11) % 256 = 0 := by
  rw [checksumHolds, checksum_eq_iff, frameSlice_checked, byteSum_append, byteSum_cons, byteSum_nil, add_zero]

/-- The edge pairs of a frame decode to that frame, as a result or as the evidence of a mismatch (R160, R166). -/
theorem demodulated_edgePairs (F : Frame) :
    demodulated (edgePairs F) =
      if byteSum (frameSlice F 4 11) % 256 = 0 then .ok F else .error (.checksumMismatch F) :=
  (demodulated_of_bits (edgePairs F) F fun _ => pairBit_edgePairs F).trans
    (if_congr (checksumHolds_iff_byteSum F) rfl rfl)

/-- The checksum of a built frame holds, so its edge pairs decode to it (V41). -/
theorem demodulated_edgePairs_builtFrame (a : BitVec 16) (c m : Byte) :
    demodulated (edgePairs (builtFrame a c m)) = .ok (builtFrame a c m) := by
  rw [demodulated_edgePairs, if_pos ((checksumHolds_iff_byteSum _).1 (checksum_builtFrame a c m))]

/-- Settles O22: both operations answer from what the edge pairs decode to (`demodulated_edgePairs`), and bytes 9 and 10
of a built frame are its command and its mode. -/
theorem edgePairsDecode : Obligations.EdgePairsDecode := by
  refine ⟨fun F s => ⟨_, exec_demodulate (edgePairs F) s, ?_⟩, fun a c m s => ?_⟩
  · rw [State.respond_rsp, demodulated_edgePairs, apply_ite demodulateResponse]
    rfl
  · refine ⟨builtFrame a c m, _, _, exec_buildFrame a c m s, rfl, exec_onSignal _ s, ?_⟩
    rw [State.respond_rsp, demodulated_edgePairs_builtFrame]
    rfl

end Sys2Proof.Machine
